-- ==== Sys2Proof/Word.lean ====
section
/-! DEFINITION. The word types of the BBC (spec/00_scope.md R4, R5): the 64-bit accumulator and operand word, and
the 8-bit byte of the two streams. Their arithmetic (R6) stands in Sys2Proof/Machine/Operands.lean. -/

namespace Sys2Proof

/-- A 64-bit word: the accumulator `bits`, the operand `DATA`, the response's `data` (R10, R40, R48). -/
abbrev Word := BitVec 64

/-- A byte of `IN`, of `OUT` or of PUSHB (R25). -/
abbrev Byte := BitVec 8

end Sys2Proof
end

