-- ==== Sys2Proof/Syntax.lean ====
section
/-! DEFINITION. The command set of spec/30_encoding.md as syntax: the operands (R42, R43), the FieldType of
spec/43_fieldtype_value.md R93, the 27 rows of R45 by name, and the commands with their operands. -/

namespace Sys2Proof

/-- The byte and bit order operand (R27, R94): big is `e` = 0, little is `e` = 1. -/
inductive Endian where
  | big
  | little
deriving DecidableEq, Repr

/-- The kind of a FieldType, `td[1:0]` (R43): 0 Uint, 1 Int, 2 Float, 3 Double. -/
inductive Kind where
  | uint
  | int
  | float
  | double
deriving DecidableEq, Repr

/-- The type descriptor of a format-T command less its kind, which the row fixes (R42, R43, R45): any values, legal
or not; R44 checks them when the command executes. -/
structure TypeOpd where
  /-- `td[11:5]`, the declared bit width. -/
  nb : BitVec 7
  /-- `td[4:3]`, the container code. -/
  cc : BitVec 2
  /-- `td[2]`, the endianness. -/
  e  : Endian
deriving DecidableEq, Repr

/-- A container width, one of 8, 16, 32, 64 bits (R96). -/
inductive Container where
  | c8
  | c16
  | c32
  | c64
deriving DecidableEq, Repr

/-- A FieldType: the four variants of R93, a closed set. -/
inductive FieldType where
  | uint   (bits : Nat) (e : Endian) (container : Container)
  | int    (bits : Nat) (e : Endian) (container : Container)
  | float  (e : Endian)
  | double (e : Endian)
deriving DecidableEq, Repr

/-- The rows of the opcode map (R45), by name. -/
inductive Mnemonic where
  | pushbBe | pushbLe | pushvBe | pushvLe
  | pullvU | pullvI | pullvF | pullvD | pullb | drainBe | drainLe
  | qempty | qalign | mask | rdbuf | rdavl
  | decU | decI | decF | decD
  | encU | encI | encF | encD | flushBe | flushLe
  | reset
deriving DecidableEq, Repr

/-- A command with its operands, one constructor per row of R45. `data` is the operand DATA; only PUSHV and ENC
read it, so only they carry it (R40). -/
inductive Instr where
  | pushbBe (imm8 : Byte)
  | pushbLe (imm8 : Byte)
  | pushvBe (n : BitVec 7) (data : Word)
  | pushvLe (n : BitVec 7) (data : Word)
  | pullvU (t : TypeOpd)
  | pullvI (t : TypeOpd)
  | pullvF (t : TypeOpd)
  | pullvD (t : TypeOpd)
  | pullb
  | drainBe
  | drainLe
  | qempty
  | qalign
  | mask (n : BitVec 7)
  | rdbuf
  | rdavl
  | decU (t : TypeOpd)
  | decI (t : TypeOpd)
  | decF (t : TypeOpd)
  | decD (t : TypeOpd)
  | encU (t : TypeOpd) (data : Word)
  | encI (t : TypeOpd) (data : Word)
  | encF (t : TypeOpd) (data : Word)
  | encD (t : TypeOpd) (data : Word)
  | flushBe
  | flushLe
  | reset
deriving DecidableEq, Repr

/-- A command as the command port carries it: the 32-bit command word and the 64-bit operand (R40). -/
structure Command where
  cw   : BitVec 32
  data : Word
deriving DecidableEq, Repr

/-- The row of R45 a command belongs to. -/
def Instr.mnemonic : Instr → Mnemonic
  | .pushbBe _ => .pushbBe
  | .pushbLe _ => .pushbLe
  | .pushvBe _ _ => .pushvBe
  | .pushvLe _ _ => .pushvLe
  | .pullvU _ => .pullvU
  | .pullvI _ => .pullvI
  | .pullvF _ => .pullvF
  | .pullvD _ => .pullvD
  | .pullb => .pullb
  | .drainBe => .drainBe
  | .drainLe => .drainLe
  | .qempty => .qempty
  | .qalign => .qalign
  | .mask _ => .mask
  | .rdbuf => .rdbuf
  | .rdavl => .rdavl
  | .decU _ => .decU
  | .decI _ => .decI
  | .decF _ => .decF
  | .decD _ => .decD
  | .encU _ _ => .encU
  | .encI _ _ => .encI
  | .encF _ _ => .encF
  | .encD _ _ => .encD
  | .flushBe => .flushBe
  | .flushLe => .flushLe
  | .reset => .reset

/-- PULLV of a kind: the suffix .U, .I, .F, .D is the kind (R45). -/
def Instr.pullv : Kind → TypeOpd → Instr
  | .uint => .pullvU
  | .int => .pullvI
  | .float => .pullvF
  | .double => .pullvD

/-- DEC of a kind (R45). -/
def Instr.dec : Kind → TypeOpd → Instr
  | .uint => .decU
  | .int => .decI
  | .float => .decF
  | .double => .decD

/-- ENC of a kind (R45). -/
def Instr.enc : Kind → TypeOpd → Word → Instr
  | .uint => .encU
  | .int => .encI
  | .float => .encF
  | .double => .encD

/-- PUSHV of an order (R45). -/
def Instr.pushv : Endian → BitVec 7 → Word → Instr
  | .big => .pushvBe
  | .little => .pushvLe

/-- PUSHB of an order (R45). -/
def Instr.pushb : Endian → Byte → Instr
  | .big => .pushbBe
  | .little => .pushbLe

/-- DRAIN of an order (R45). -/
def Instr.drain : Endian → Instr
  | .big => .drainBe
  | .little => .drainLe

/-- FLUSH of an order (R45). -/
def Instr.flush : Endian → Instr
  | .big => .flushBe
  | .little => .flushLe

/-- The commands that read DATA: PUSHV and ENC (R40). -/
def Instr.readsData : Instr → Bool
  | .pushvBe _ _ | .pushvLe _ _ | .encU _ _ | .encI _ _ | .encF _ _ | .encD _ _ => true
  | .pushbBe _ | .pushbLe _ | .pullvU _ | .pullvI _ | .pullvF _ | .pullvD _ | .pullb | .drainBe | .drainLe
  | .qempty | .qalign | .mask _ | .rdbuf | .rdavl | .decU _ | .decI _ | .decF _ | .decD _ | .flushBe | .flushLe
  | .reset => false

end Sys2Proof
end

