-- ==== Sys2Proof/WellFormed.lean ====
section
/-! DEFINITION. Which terms of the syntax some command word encodes. -/

namespace Sys2Proof

/-- A command is encodable exactly when it is no MASK of more than 64 bits: a CW with such an `n` is illegal (R45,
R46). Every other operand value selects its row; an illegal type descriptor or width is a fault the command raises
(R44), not an illegal encoding. -/
def Instr.wellFormed : Instr → Bool
  | .mask n => n.toNat ≤ 64
  | .pushbBe _ | .pushbLe _ | .pushvBe _ _ | .pushvLe _ _ | .pullvU _ | .pullvI _ | .pullvF _ | .pullvD _ | .pullb
  | .drainBe | .drainLe | .qempty | .qalign | .rdbuf | .rdavl | .decU _ | .decI _ | .decF _ | .decD _ | .encU _ _
  | .encI _ _ | .encF _ _ | .encD _ _ | .flushBe | .flushLe | .reset => true

end Sys2Proof
end

