-- ==== Sys2Proof/Decode.lean ====
section
/-! DEFINITION. The encoding of spec/30_encoding.md: the fields of the command word (R41, R42) and of the type
descriptor (R43), the decoder, total on every command word and rejecting by name what R46 lists, the encoder written
from the same tables, and the opcode map of R45 as match and mask. -/

namespace Sys2Proof

/-- Why a command word selects no row of R45 (the groups of R46). The hardware shows one status for all of them,
ILLEGAL_COMMAND; the names are the model's (log entry 12). -/
inductive DecodeError where
  /-- `op = 0x0`. -/
  | reservedOpcode
  /-- `cw[27:12] ≠ 0`. -/
  | reservedBits
  /-- a bit of `opd` that the row's format does not name is set. -/
  | operandBits
  /-- MASK with `n > 64`. -/
  | maskWidth
deriving DecidableEq, Repr

/-! ## Fields -/

/-- `cw[31:28]` (R41). -/
def opcode (cw : BitVec 32) : BitVec 4 := cw.extractLsb' 28 4

/-- `cw[27:12]` (R41). -/
def reserved (cw : BitVec 32) : BitVec 16 := cw.extractLsb' 12 16

/-- `cw[11:0]` (R41). -/
def operand (cw : BitVec 32) : BitVec 12 := cw.extractLsb' 0 12

/-- `opd[11:5]`: `n` of format W, `nb` of format T (R42). -/
def opdWidth (o : BitVec 12) : BitVec 7 := o.extractLsb' 5 7

/-- `opd[4:3]`: the container code of format T (R42). -/
def opdContainer (o : BitVec 12) : BitVec 2 := o.extractLsb' 3 2

/-- `opd[2]`: the endianness (R42). -/
def opdEndian (o : BitVec 12) : BitVec 1 := o.extractLsb' 2 1

/-- `opd[1:0]`: the kind of format T (R42). -/
def opdKind (o : BitVec 12) : BitVec 2 := o.extractLsb' 0 2

/-- `opd[11:8]`, zero in format B (R42). -/
def opdHigh (o : BitVec 12) : BitVec 4 := o.extractLsb' 8 4

/-- `opd[7:0]`: `imm8` of format B (R42). -/
def opdImm8 (o : BitVec 12) : Byte := o.extractLsb' 0 8

/-- `e`: 0 big-endian, 1 little-endian (R42). -/
def Endian.bit : Endian → BitVec 1
  | .big => 0
  | .little => 1

def Endian.ofBit (b : BitVec 1) : Endian := if b = 0 then .big else .little

/-- `kind`: 0 Uint, 1 Int, 2 Float, 3 Double (R43). -/
def Kind.code : Kind → BitVec 2
  | .uint => 0
  | .int => 1
  | .float => 2
  | .double => 3

def Kind.ofCode (k : BitVec 2) : Kind :=
  if k = 0 then .uint else if k = 1 then .int else if k = 2 then .float else .double

/-- `cc`: the container width is 8 · 2^cc (R43). -/
def Container.code : Container → BitVec 2
  | .c8 => 0
  | .c16 => 1
  | .c32 => 2
  | .c64 => 3

def Container.ofCode (c : BitVec 2) : Container :=
  if c = 0 then .c8 else if c = 1 then .c16 else if c = 2 then .c32 else .c64

/-! ## The decoder -/

/-- Format N: no operand (R42). -/
def decodeN (i : Instr) (o : BitVec 12) : Except DecodeError Instr :=
  if o = 0 then .ok i else .error .operandBits

/-- Format B: a byte (R42). -/
def decodeB (f : Byte → Instr) (o : BitVec 12) : Except DecodeError Instr :=
  if opdHigh o = 0 then .ok (f (opdImm8 o)) else .error .operandBits

/-- Format E: an endianness bit (R42). -/
def decodeE (f : Endian → Instr) (o : BitVec 12) : Except DecodeError Instr :=
  if opdWidth o = 0 ∧ opdContainer o = 0 ∧ opdKind o = 0 then .ok (f (.ofBit (opdEndian o)))
  else .error .operandBits

/-- Format W of PUSHV: a width, an endianness and DATA (R42). -/
def decodeW (f : Endian → BitVec 7 → Word → Instr) (o : BitVec 12) (data : Word) : Except DecodeError Instr :=
  if opdContainer o = 0 ∧ opdKind o = 0 then .ok (f (.ofBit (opdEndian o)) (opdWidth o) data)
  else .error .operandBits

/-- Format W of MASK: a width of at most 64, every other bit zero (R42, R46). -/
def decodeMask (o : BitVec 12) : Except DecodeError Instr :=
  if opdContainer o ≠ 0 ∨ opdEndian o ≠ 0 ∨ opdKind o ≠ 0 then .error .operandBits
  else if (opdWidth o).toNat > 64 then .error .maskWidth
  else .ok (.mask (opdWidth o))

/-- The operand of format T (R42, R43). -/
def opdType (o : BitVec 12) : TypeOpd := ⟨opdWidth o, opdContainer o, .ofBit (opdEndian o)⟩

/-- The command a command word and its operand encode (R41, R42, R45); a rejection names the group of R46. DATA
never decides whether a word is legal (R40). -/
def decode (c : Command) : Except DecodeError Instr :=
  let o := operand c.cw
  if reserved c.cw ≠ 0 then .error .reservedBits else
  match (opcode c.cw).toNat with
  | 0x1 => decodeB .pushbBe o
  | 0x2 => decodeB .pushbLe o
  | 0x3 => decodeW .pushv o c.data
  | 0x4 => .ok (.pullv (.ofCode (opdKind o)) (opdType o))
  | 0x5 => decodeN .pullb o
  | 0x6 => decodeE .drain o
  | 0x7 => decodeN .qempty o
  | 0x8 => decodeN .qalign o
  | 0x9 => decodeMask o
  | 0xA => decodeN .rdbuf o
  | 0xB => decodeN .rdavl o
  | 0xC => .ok (.dec (.ofCode (opdKind o)) (opdType o))
  | 0xD => .ok (.enc (.ofCode (opdKind o)) (opdType o) c.data)
  | 0xE => decodeE .flush o
  | 0xF => decodeN .reset o
  | _ => .error .reservedOpcode

/-! ## The encoder -/

/-- A command word: `op`, 16 reserved zeros, `opd` (R41). -/
def wordOf (op : BitVec 4) (o : BitVec 12) : BitVec 32 := op ++ (0#16 ++ o)

/-- `opd` of format B. -/
def opdB (imm8 : Byte) : BitVec 12 := 0#4 ++ imm8

/-- `opd` of format E. -/
def opdE (e : Endian) : BitVec 12 := 0#7 ++ (0#2 ++ (e.bit ++ 0#2))

/-- `opd` of format W; MASK uses it with `e` = 0. -/
def opdW (n : BitVec 7) (e : Endian) : BitVec 12 := n ++ (0#2 ++ (e.bit ++ 0#2))

/-- `opd` of format T: the type descriptor `td` (R43). -/
def opdT (k : Kind) (t : TypeOpd) : BitVec 12 := t.nb ++ (t.cc ++ (t.e.bit ++ k.code))

/-- The command of an instruction (R41, R42, R45). A command that does not read DATA is given DATA = 0. -/
def encode : Instr → Command
  | .pushbBe b => ⟨wordOf 0x1 (opdB b), 0⟩
  | .pushbLe b => ⟨wordOf 0x2 (opdB b), 0⟩
  | .pushvBe n d => ⟨wordOf 0x3 (opdW n .big), d⟩
  | .pushvLe n d => ⟨wordOf 0x3 (opdW n .little), d⟩
  | .pullvU t => ⟨wordOf 0x4 (opdT .uint t), 0⟩
  | .pullvI t => ⟨wordOf 0x4 (opdT .int t), 0⟩
  | .pullvF t => ⟨wordOf 0x4 (opdT .float t), 0⟩
  | .pullvD t => ⟨wordOf 0x4 (opdT .double t), 0⟩
  | .pullb => ⟨wordOf 0x5 0, 0⟩
  | .drainBe => ⟨wordOf 0x6 (opdE .big), 0⟩
  | .drainLe => ⟨wordOf 0x6 (opdE .little), 0⟩
  | .qempty => ⟨wordOf 0x7 0, 0⟩
  | .qalign => ⟨wordOf 0x8 0, 0⟩
  | .mask n => ⟨wordOf 0x9 (opdW n .big), 0⟩
  | .rdbuf => ⟨wordOf 0xA 0, 0⟩
  | .rdavl => ⟨wordOf 0xB 0, 0⟩
  | .decU t => ⟨wordOf 0xC (opdT .uint t), 0⟩
  | .decI t => ⟨wordOf 0xC (opdT .int t), 0⟩
  | .decF t => ⟨wordOf 0xC (opdT .float t), 0⟩
  | .decD t => ⟨wordOf 0xC (opdT .double t), 0⟩
  | .encU t d => ⟨wordOf 0xD (opdT .uint t), d⟩
  | .encI t d => ⟨wordOf 0xD (opdT .int t), d⟩
  | .encF t d => ⟨wordOf 0xD (opdT .float t), d⟩
  | .encD t d => ⟨wordOf 0xD (opdT .double t), d⟩
  | .flushBe => ⟨wordOf 0xE (opdE .big), 0⟩
  | .flushLe => ⟨wordOf 0xE (opdE .little), 0⟩
  | .reset => ⟨wordOf 0xF 0, 0⟩

/-! ## The opcode map as match and mask -/

/-- `match` and `mask` of a row of R45. -/
structure OpcodeRow where
  pattern : BitVec 32
  mask    : BitVec 32
deriving DecidableEq, Repr

/-- The table of R45, row by row. -/
def Mnemonic.row : Mnemonic → OpcodeRow
  | .pushbBe => ⟨0x10000000, 0xFFFFFF00⟩
  | .pushbLe => ⟨0x20000000, 0xFFFFFF00⟩
  | .pushvBe => ⟨0x30000000, 0xFFFFF01F⟩
  | .pushvLe => ⟨0x30000004, 0xFFFFF01F⟩
  | .pullvU => ⟨0x40000000, 0xFFFFF003⟩
  | .pullvI => ⟨0x40000001, 0xFFFFF003⟩
  | .pullvF => ⟨0x40000002, 0xFFFFF003⟩
  | .pullvD => ⟨0x40000003, 0xFFFFF003⟩
  | .pullb => ⟨0x50000000, 0xFFFFFFFF⟩
  | .drainBe => ⟨0x60000000, 0xFFFFFFFF⟩
  | .drainLe => ⟨0x60000004, 0xFFFFFFFF⟩
  | .qempty => ⟨0x70000000, 0xFFFFFFFF⟩
  | .qalign => ⟨0x80000000, 0xFFFFFFFF⟩
  | .mask => ⟨0x90000000, 0xFFFFF01F⟩
  | .rdbuf => ⟨0xA0000000, 0xFFFFFFFF⟩
  | .rdavl => ⟨0xB0000000, 0xFFFFFFFF⟩
  | .decU => ⟨0xC0000000, 0xFFFFF003⟩
  | .decI => ⟨0xC0000001, 0xFFFFF003⟩
  | .decF => ⟨0xC0000002, 0xFFFFF003⟩
  | .decD => ⟨0xC0000003, 0xFFFFF003⟩
  | .encU => ⟨0xD0000000, 0xFFFFF003⟩
  | .encI => ⟨0xD0000001, 0xFFFFF003⟩
  | .encF => ⟨0xD0000002, 0xFFFFF003⟩
  | .encD => ⟨0xD0000003, 0xFFFFF003⟩
  | .flushBe => ⟨0xE0000000, 0xFFFFFFFF⟩
  | .flushLe => ⟨0xE0000004, 0xFFFFFFFF⟩
  | .reset => ⟨0xF0000000, 0xFFFFFFFF⟩

/-- "A CW selects the row when CW AND mask = match (and, for MASK, n ≤ 64)" (R45). -/
def Mnemonic.selects (m : Mnemonic) (cw : BitVec 32) : Bool :=
  cw &&& m.row.mask == m.row.pattern && (m != .mask || (opdWidth (operand cw)).toNat ≤ 64)

/-! ## The host's numbering -/

/-- The command whose bits are `w`: bits 31..0 are CW and bits 95..32 are DATA; bits at and above `nbits` are zero
(log entry 4). -/
def commandOfBits (nbits w : Nat) : Command :=
  let v := w % 2 ^ nbits
  ⟨BitVec.ofNat 32 v, BitVec.ofNat 64 (v / 2 ^ 32)⟩

/-- The instruction the decoder reads from such a command, none where it refuses. -/
def decodeTableWord (nbits w : Nat) : Option Instr :=
  match decode (commandOfBits nbits w) with
  | .ok i => some i
  | .error _ => none

end Sys2Proof
end

