-- ==== Sys2Proof/Config.lean ====
section
/-! DEFINITION. The implementation parameters of spec/00_scope.md R4. All but one are fixed and stand as numerals in
the rules that use them (64 bits of accumulator, widths 1 to 64, containers 8, 16, 32, 64); the one OPEN parameter is
INT_NARROW_EXT (R101, decision D12). -/

namespace Sys2Proof

/-- INT_NARROW_EXT: how a signed field narrower than its tag is widened (R4, R101). -/
inductive NarrowExt where
  | sign
  | zero
deriving DecidableEq, Repr

/-- The open parameters of one machine. `exec` takes no argument for them, so a state carries them; no step writes
them (log entry 1). -/
structure Config where
  intNarrowExt : NarrowExt
deriving DecidableEq, Repr

/-- The spec's setting: INT_NARROW_EXT = sign (R4, R101, D12). -/
def Config.specSetting : Config := ⟨.sign⟩

end Sys2Proof
end

