-- ==== Sys2Proof/Machine/State.lean ====
section
/-! DEFINITION. Every piece of state spec/10_state.md gives the BBC (R10 to R18), its two ports (R19) as plain lists,
the vocabulary of the response port (spec/30_encoding.md R48 to R50, spec/60_exceptions.md R135), and the state after
reset (R21). -/

namespace Sys2Proof.Machine

/-- The Bit Buffer, "the only piece of mutable cross-field state" (R10, R11): the raw 64-bit accumulator `bits`, dead
bits included (log entry 6), and `avail`, the spec's `bits_avail`, a natural number (R5; log entry 8). -/
structure BitBuffer where
  bits  : Word
  avail : Nat
deriving DecidableEq, Repr

/-- The seven fault causes (R135, R137 to R143). Taking one is a next state (R136): none of them stops the model. -/
inductive FaultCause where
  | capacity
  | unsupportedWidth
  | typeFormat
  | endOfInput
  | misalignedFloat
  | underflow
  | illegalCommand
deriving DecidableEq, Repr

/-- The status of a response (R50): success, one of the seven faults, the refusal FAULTED, or NO_ITEM. Codes 10 to 15
are never produced and have no constructor (log entry 15). -/
inductive Status where
  | ok
  | raised (x : FaultCause)
  | faulted
  | noItem
deriving DecidableEq, Repr

/-- The ten Value tags (R49, R98). NONE is the absence of a tag. -/
inductive Tag where
  | u8 | u16 | u32 | u64
  | i8 | i16 | i32 | i64
  | f32 | f64
deriving DecidableEq, Repr

/-- A response: status, Value tag (none is NONE) and 64-bit data (R48). -/
structure Response where
  status : Status
  vtag   : Option Tag
  data   : Word
deriving DecidableEq, Repr

/-- The machine and its two ports. -/
structure State where
  /-- The OPEN parameter INT_NARROW_EXT (R4): fixed for a machine, written by no step (log entry 1). -/
  cfg       : Config
  /-- `bits` and `bits_avail` (R10, R11). -/
  buf       : BitBuffer
  /-- The sticky fault register, 4 bits; 0 means no fault (R14). -/
  fault     : BitVec 4
  /-- IN, the bytes not yet consumed, first in the stream first (R17). -/
  input     : List Byte
  /-- OUT, the bytes written so far, in the order written (R18). -/
  output    : List Byte
  /-- The command port: the commands the host has issued and the BBC has not executed, next first (R15, R19, R132;
  log entry 2). -/
  commands  : List Command
  /-- The response port: the responses returned so far, oldest first (R19, R132; log entry 3). -/
  responses : List Response
deriving DecidableEq, Repr

/-- What stops the machine: nothing. Every word the port can carry is answered (R47, R144), every fault of the spec is
a next state (R136), and there is no halt (R132, R158); so no constructor (log entry 9; safe). -/
inductive Fault where
deriving DecidableEq, Repr

/-- Why an instruction has no meaning. -/
inductive Refusal where
  /-- Raised by an arm of `exec` whose instruction has no meaning yet; no arm is left so (safe). -/
  | notModelled (mnemonic : String)
deriving DecidableEq, Repr

/-- The machine right after power-on reset (R21, R155, R156): `bits` = 0, `bits_avail` = 0, `fault` = 0, OUT empty.
The spec leaves IN to the host and names no content for the ports: empty (log entry 5). INT_NARROW_EXT is the spec's
setting (log entry 1). -/
def State.reset : State where
  cfg := Config.specSetting
  buf := ⟨0, 0⟩
  fault := 0
  input := []
  output := []
  commands := []
  responses := []

end Sys2Proof.Machine
end

