-- ==== Sys2Proof/Machine/Operands.lean ====
section
/-! DEFINITION. The pure functions of spec/00_scope.md R6, the operand checks of spec/30_encoding.md R44, the FieldType
projections and the interpretation of extracted bits of spec/43_fieldtype_value.md (R94 to R104, R107), and the codes
of the response port (R49, R50). -/

namespace Sys2Proof.Machine

/-! ## R6 -/

/-- mask(n) = 2^n − 1: mask(0) = 0 and mask(64) is all ones (R6). -/
def mask (n : Nat) : Word := BitVec.ofNat 64 (2 ^ n - 1)

/-- shl64(x, n) = (x · 2^n) mod 2^64; a shift by 64 gives 0 (R6, D14). -/
def shl64 (x : Word) (n : Nat) : Word := x <<< n

/-- shr64(x, n) = floor(x / 2^n); a shift by 64 gives 0 (R6, D14). -/
def shr64 (x : Word) (n : Nat) : Word := x >>> n

/-- sext_w(v) of an `n`-bit value, as a `w`-bit pattern in a 64-bit word: v + (2^w − 2^n) when v[n−1] = 1 (R6). -/
def sextTo (w n : Nat) (v : Word) : Word :=
  if v.getLsbD (n - 1) then v + BitVec.ofNat 64 (2 ^ w - 2 ^ n) else v

/-- signed_w(p): the integer a `w`-bit pattern stands for in two's complement (R6). -/
def signedOf (w : Nat) (p : Word) : Int :=
  if p.getLsbD (w - 1) then (p.toNat : Int) - 2 ^ w else p.toNat

/-! ## FieldType: the projections of R94 to R97 -/

end Sys2Proof.Machine

namespace Sys2Proof

/-- The width of a container in bits, 8 · 2^cc (R43, R96). -/
def Container.bits : Container → Nat
  | .c8 => 8
  | .c16 => 16
  | .c32 => 32
  | .c64 => 64

/-- The bytes a refill reads for a container, its width divided by 8 (R96). -/
def Container.bytes (c : Container) : Nat := c.bits / 8

/-- The default container: the smallest of 8, 16, 32, 64 that is at least the width (R97). -/
def Container.smallestFor (n : Nat) : Container :=
  if n ≤ 8 then .c8 else if n ≤ 16 then .c16 else if n ≤ 32 then .c32 else .c64

/-- R93: widths 1 to 64 and `bits ≤ container` for Int and Uint; Float and Double have no sub-width variant. -/
def FieldType.wellFormed : FieldType → Bool
  | .uint n _ c | .int n _ c => 1 ≤ n && n ≤ 64 && n ≤ c.bits
  | .float _ | .double _ => true

/-- `endianness(t)` (R94). -/
def FieldType.endian : FieldType → Endian
  | .uint _ e _ | .int _ e _ | .float e | .double e => e

/-- `num_bits(t)` (R95). -/
def FieldType.numBits : FieldType → Nat
  | .uint n _ _ | .int n _ _ => n
  | .float _ => 32
  | .double _ => 64

/-- `container_bit_size(t)` (R96); Float and Double "are always full 4/8-byte reads". -/
def FieldType.container : FieldType → Container
  | .uint _ _ c | .int _ _ c => c
  | .float _ => .c32
  | .double _ => .c64

def FieldType.kind : FieldType → Kind
  | .uint _ _ _ => .uint
  | .int _ _ _ => .int
  | .float _ => .float
  | .double _ => .double

/-- Float and Double are the kinds that need byte alignment (R33). -/
def FieldType.floating (t : FieldType) : Bool :=
  match t.kind with
  | .float | .double => true
  | .uint | .int => false

/-- The type descriptor of a FieldType, less its kind (R43, R54): `nb` is 0 for Float and Double. -/
def FieldType.typeOpd : FieldType → TypeOpd
  | .uint n e c | .int n e c => ⟨BitVec.ofNat 7 n, c.code, e⟩
  | .float e => ⟨0, Container.c32.code, e⟩
  | .double e => ⟨0, Container.c64.code, e⟩

/-- The 12-bit TD of a FieldType (R43, R54). -/
def FieldType.td (t : FieldType) : BitVec 12 := opdT t.kind t.typeOpd

end Sys2Proof

namespace Sys2Proof.Machine

/-! ## R44 -/

/-- `check_td` of an integer TD: the width first, then `nb ≤ container` (R44). -/
def checkIntTd (mk : Nat → Endian → Container → FieldType) (t : TypeOpd) : Except FaultCause FieldType :=
  if t.nb.toNat = 0 ∨ t.nb.toNat > 64 then .error .unsupportedWidth
  else if t.nb.toNat > 8 * 2 ^ t.cc.toNat then .error .typeFormat
  else .ok (mk t.nb.toNat t.e (.ofCode t.cc))

/-- `check_td` (R44): the FieldType a TD stands for, or the fault its illegality raises. -/
def checkTd (k : Kind) (t : TypeOpd) : Except FaultCause FieldType :=
  match k with
  | .uint => checkIntTd .uint t
  | .int => checkIntTd .int t
  | .float => if t.nb ≠ 0 ∨ t.cc ≠ 2 then .error .typeFormat else .ok (.float t.e)
  | .double => if t.nb ≠ 0 ∨ t.cc ≠ 3 then .error .typeFormat else .ok (.double t.e)

/-! ## Tags and interpretation -/

/-- The width of a tag's payload (R98). -/
def Tag.width : Tag → Nat
  | .u8 | .i8 => 8
  | .u16 | .i16 => 16
  | .u32 | .i32 | .f32 => 32
  | .u64 | .i64 | .f64 => 64

/-- The tag of a Uint field: the smallest that holds its width (R99). -/
def unsignedTag (n : Nat) : Tag := if n ≤ 8 then .u8 else if n ≤ 16 then .u16 else if n ≤ 32 then .u32 else .u64

/-- The tag of an Int field (R99). -/
def signedTag (n : Nat) : Tag := if n ≤ 8 then .i8 else if n ≤ 16 then .i16 else if n ≤ 32 then .i32 else .i64

/-- The payload of an Int field of `n` bits: sign-extended to the tag's width when INT_NARROW_EXT = sign, the bits
themselves when it is zero (R101). -/
def widenInt (x : NarrowExt) (n : Nat) (v : Word) : Word :=
  match x with
  | .sign => sextTo (signedTag n).width n v
  | .zero => v

/-- `interpret` (R107): the tag and payload of the extracted bits `v`, the payload zero-extended to 64 bits. Float and
Double patterns pass through unchanged (R102, R103). -/
def interpret (cfg : Config) (t : FieldType) (v : Word) : Tag × Word :=
  match t with
  | .uint n _ _ => (unsignedTag n, v)
  | .int n _ _ => (signedTag n, widenInt cfg.intNarrowExt n v)
  | .float _ => (.f32, v)
  | .double _ => (.f64, v)

/-! ## Codes -/

/-- The 4-bit code of a fault cause, in `fault` and in a response's status (R50, R135). -/
def FaultCause.code : FaultCause → BitVec 4
  | .capacity => 1
  | .unsupportedWidth => 2
  | .typeFormat => 3
  | .endOfInput => 4
  | .misalignedFloat => 5
  | .underflow => 6
  | .illegalCommand => 7

/-- The 4-bit status code (R50). -/
def Status.code : Status → BitVec 4
  | .ok => 0
  | .raised x => x.code
  | .faulted => 8
  | .noItem => 9

/-- The 4-bit tag code (R49). -/
def Tag.code : Tag → BitVec 4
  | .u8 => 0x0
  | .u16 => 0x1
  | .u32 => 0x2
  | .u64 => 0x3
  | .i8 => 0x4
  | .i16 => 0x5
  | .i32 => 0x6
  | .i64 => 0x7
  | .f32 => 0xA
  | .f64 => 0xB

/-- The `vtag` of a response; NONE is 0xF (R49). -/
def vtagCode : Option Tag → BitVec 4
  | none => 0xF
  | some t => t.code

/-- A response as the port carries it: 4, 4 and 64 bits (R19, R48). -/
def Response.wires (r : Response) : BitVec 4 × BitVec 4 × BitVec 64 := (r.status.code, vtagCode r.vtag, r.data)

end Sys2Proof.Machine
end

