-- ==== Sys2Proof/Machine/Flags.lean ====
section
/-! DEFINITION. What is derived from the Bit Buffer and never stored: the two status flags of spec/10_state.md R16 and
the content of R13. The BBC has no other flags. -/

namespace Sys2Proof.Machine

/-- EMPTY = (bits_avail = 0) (R16, D22). -/
def BitBuffer.empty (b : BitBuffer) : Bool := b.avail == 0

/-- ALIGNED = (bits_avail > 0) and (bits_avail mod 8 = 0) (R16). -/
def BitBuffer.aligned (b : BitBuffer) : Bool := b.avail > 0 && b.avail % 8 == 0

/-- The test a Float or Double request makes: a remainder that is no whole number of bytes (R33, R141, C7). -/
def BitBuffer.misaligned (b : BitBuffer) : Bool := b.avail % 8 != 0

/-- content = bits AND mask(bits_avail), the occupied region (R6, R13). -/
def BitBuffer.content (b : BitBuffer) : Word := b.bits &&& mask b.avail

/-- A flag as response data: 1 if true, else 0 (R48). -/
def flagWord (f : Bool) : Word := if f then 1 else 0

end Sys2Proof.Machine
end

