-- ==== Sys2Proof/Machine/Ops.lean ====
section
/-! DEFINITION. The shared operations: the named updates of State; the push core (spec/40_bitbuffer_push.md R60), the
pull core (spec/41_bitbuffer_pull.md R70, R71), the drain loop (R78, R79) and the refill (spec/44_field_codec.md R111)
on the Bit Buffer; responding, taking a fault (spec/60_exceptions.md R136) and its only return, RESET (R130, R148);
fetching the next command (spec/30_encoding.md R47). -/

namespace Sys2Proof.Machine

/-! ## Named updates -/

def State.setBuf (s : State) (b : BitBuffer) : State := { s with buf := b }
def State.setFault (s : State) (f : BitVec 4) : State := { s with fault := f }
def State.setInput (s : State) (bs : List Byte) : State := { s with input := bs }
def State.setCommands (s : State) (cs : List Command) : State := { s with commands := cs }

/-- MemWrite(OUT, 1, b) for each byte in turn (R7, R18). -/
def State.emit (s : State) (bs : List Byte) : State := { s with output := s.output ++ bs }

/-- respond(status, vtag, data) (R7, R48). -/
def State.respond (s : State) (st : Status) (t : Option Tag) (d : Word) : State :=
  { s with responses := s.responses ++ [⟨st, t, d⟩] }

/-! ## Faults and reset -/

/-- raise X(info) (R7, R136): the code is latched and answered, and nothing else changes. Every caller raises before
its first write, so a raised command leaves the buffer and OUT as they were (R147). -/
def State.raise (s : State) (x : FaultCause) (info : Word) : State :=
  (s.setFault x.code).respond (.raised x) none info

/-- What RESET does to the registers (R130): the same as power-on reset (R155). The streams are not touched (R156). -/
def State.clear (s : State) : State := (s.setBuf ⟨0, 0⟩).setFault 0

/-! ## Push and pull -/

/-- `push_bits_be` (R60). -/
def BitBuffer.pushBe (b : BitBuffer) (v : Word) (n : Nat) : BitBuffer :=
  ⟨shl64 b.bits n ||| (v &&& mask n), b.avail + n⟩

/-- `push_bits_le` (R60): ORs onto the content, so that dead bits never become content (conflict C1, D8). -/
def BitBuffer.pushLe (b : BitBuffer) (v : Word) (n : Nat) : BitBuffer :=
  ⟨(b.bits &&& mask b.avail) ||| shl64 (v &&& mask n) b.avail, b.avail + n⟩

/-- The push of an order. -/
def BitBuffer.push (b : BitBuffer) (e : Endian) (v : Word) (n : Nat) : BitBuffer :=
  match e with
  | .big => b.pushBe v n
  | .little => b.pushLe v n

/-- `extract_be` (R70): the top `n` bits of the occupied region; `bits` is not written. -/
def BitBuffer.extractBe (b : BitBuffer) (n : Nat) : Word × BitBuffer :=
  (shr64 b.bits (b.avail - n) &&& mask n, ⟨b.bits, b.avail - n⟩)

/-- `extract_le` (R71): the bottom `n` bits; the rest moves down. -/
def BitBuffer.extractLe (b : BitBuffer) (n : Nat) : Word × BitBuffer :=
  (b.bits &&& mask n, ⟨shr64 b.bits n, b.avail - n⟩)

/-- The extraction of an order. -/
def BitBuffer.extract (b : BitBuffer) (e : Endian) (n : Nat) : Word × BitBuffer :=
  match e with
  | .big => b.extractBe n
  | .little => b.extractLe n

/-- The loop "while ALIGNED: b <- extract(8); MemWrite(OUT, 1, b)" with a bound on its turns: the bytes in the order
written, and the buffer left (R78, R79). -/
def BitBuffer.drainLoop (e : Endian) : Nat → BitBuffer → List Byte × BitBuffer
  | 0, b => ([], b)
  | k + 1, b =>
    if b.aligned then
      let x := b.extract e 8
      let r := BitBuffer.drainLoop e k x.2
      (x.1.setWidth 8 :: r.1, r.2)
    else ([], b)

/-- The drain: an aligned buffer of `8k` bits takes exactly `k` turns, so the bound never cuts it short (R78). -/
def BitBuffer.drain (b : BitBuffer) (e : Endian) : List Byte × BitBuffer := b.drainLoop e (b.avail / 8)

/-- The pushes of a refill: one per byte, first stream byte first (R111). -/
def BitBuffer.pushBytes (b : BitBuffer) (e : Endian) (bs : List Byte) : BitBuffer :=
  bs.foldl (fun b x => b.push e (x.setWidth 64) 8) b

/-- MemRead(IN, k) and its pushes, when IN holds `k` bytes (R7, R111). -/
def State.refill (s : State) (k : Nat) (e : Endian) : State :=
  (s.setBuf (s.buf.pushBytes e (s.input.take k))).setInput (s.input.drop k)

/-- The drain of the buffer to OUT, answered with the number of bytes written (R48, R78, R79). -/
def State.drainOut (s : State) (e : Endian) : State :=
  let r := s.buf.drain e
  ((s.setBuf r.2).emit r.1).respond .ok none (BitVec.ofNat 64 r.1.length)

/-! ## Field checks -/

/-- What PULLV, DEC and ENC check before anything else: the TD, then the alignment of a Float or Double (R44, R33,
R72, R110, R116). -/
def checkField (k : Kind) (t : TypeOpd) (b : BitBuffer) : Except FaultCause FieldType :=
  match checkTd k t with
  | .error x => .error x
  | .ok ft => if ft.floating && b.misaligned then .error .misalignedFloat else .ok ft

/-- The end of PULLV and DEC: UNDERFLOW, or the extracted bits as a tagged Value (R72, R110). -/
def State.pullField (s : State) (ft : FieldType) : State :=
  if ft.numBits > s.buf.avail then s.raise .underflow 0
  else
    let x := s.buf.extract ft.endian ft.numBits
    let r := interpret s.cfg ft x.1
    (s.setBuf x.2).respond .ok (some r.1) r.2

/-! ## Fetch -/

/-- The word that RESET is, exactly (R47, R130). -/
def resetWord : BitVec 32 := 0xF0000000

/-- What the command port does next. -/
inductive Fetched where
  /-- No command is waiting. -/
  | idle
  /-- The command was answered without executing: FAULTED, or ILLEGAL_COMMAND. -/
  | answered (s : State)
  /-- A row of R45 is selected; the state is that with the command taken from the port. -/
  | run (i : Instr) (s : State)
deriving DecidableEq, Repr

/-- The order of R47: the refusal while a fault is latched, which does not decode (R144); then the decoding, an
illegal word raising ILLEGAL_COMMAND (R143); then the row. -/
def fetch (s : State) : Fetched :=
  match s.commands with
  | [] => .idle
  | c :: rest =>
    let s := s.setCommands rest
    if s.fault ≠ 0 ∧ c.cw ≠ resetWord then .answered (s.respond .faulted none (s.fault.setWidth 64))
    else
      match decode c with
      | .ok i => .run i s
      | .error _ => .answered (s.raise .illegalCommand 0)

/-- The host presents a command before every other. -/
def State.present (s : State) (c : Command) : State := s.setCommands (c :: s.commands)

end Sys2Proof.Machine
end

