-- ==== Sys2Proof/Machine/Codec.lean ====
section
/-! DEFINITION. The field codec of spec/44_field_codec.md: DEC.U, DEC.I, DEC.F, DEC.D, ENC.U, ENC.I, ENC.F, ENC.D,
FLUSH.BE, FLUSH.LE. -/

namespace Sys2Proof.Machine

/-- The common body of DEC (R110, R111): an empty buffer is refilled with one container of IN, all or nothing; a buffer
that is not empty is never topped up. END_OF_INPUT consumes what IN held and answers how many bytes that was (R140). -/
def decodeField (k : Kind) (t : TypeOpd) (s : State) : State :=
  match checkField k t s.buf with
  | .error x => s.raise x 0
  | .ok ft =>
    if s.buf.empty then
      if s.input.length < ft.container.bytes then
        (s.setInput []).raise .endOfInput (BitVec.ofNat 64 s.input.length)
      else (s.refill ft.container.bytes ft.endian).pullField ft
    else s.pullField ft

/-- The common body of ENC (R116): the push, then the drain in the field's own order (C3, D9). -/
def encodeField (k : Kind) (t : TypeOpd) (data : Word) (s : State) : State :=
  match checkField k t s.buf with
  | .error x => s.raise x 0
  | .ok ft =>
    if ft.numBits > 64 - s.buf.avail then s.raise .capacity 0
    else (s.setBuf (s.buf.push ft.endian data ft.numBits)).drainOut ft.endian

/-- The zero bits that take a count to the next byte boundary (R121). -/
def padBits (avail : Nat) : Nat := (8 - avail % 8) % 8

/-- The common body of FLUSH (R121, R122). -/
def flushBuffer (e : Endian) (s : State) : State :=
  let p := padBits s.buf.avail
  (if p > 0 then s.setBuf (s.buf.push e 0 p) else s).drainOut e

/-- DEC.U (R112). -/
def execDecU (t : TypeOpd) (s : State) : Host.Outcome State Fault Refusal := .next (decodeField .uint t s)

/-- DEC.I (R113). -/
def execDecI (t : TypeOpd) (s : State) : Host.Outcome State Fault Refusal := .next (decodeField .int t s)

/-- DEC.F (R114). -/
def execDecF (t : TypeOpd) (s : State) : Host.Outcome State Fault Refusal := .next (decodeField .float t s)

/-- DEC.D (R115). -/
def execDecD (t : TypeOpd) (s : State) : Host.Outcome State Fault Refusal := .next (decodeField .double t s)

/-- ENC.U (R117). -/
def execEncU (t : TypeOpd) (data : Word) (s : State) : Host.Outcome State Fault Refusal :=
  .next (encodeField .uint t data s)

/-- ENC.I (R118): the signedness of the field plays no part. -/
def execEncI (t : TypeOpd) (data : Word) (s : State) : Host.Outcome State Fault Refusal :=
  .next (encodeField .int t data s)

/-- ENC.F (R119). -/
def execEncF (t : TypeOpd) (data : Word) (s : State) : Host.Outcome State Fault Refusal :=
  .next (encodeField .float t data s)

/-- ENC.D (R120). -/
def execEncD (t : TypeOpd) (data : Word) (s : State) : Host.Outcome State Fault Refusal :=
  .next (encodeField .double t data s)

/-- FLUSH.BE (R121). -/
def execFlushBe (s : State) : Host.Outcome State Fault Refusal := .next (flushBuffer .big s)

/-- FLUSH.LE (R122). -/
def execFlushLe (s : State) : Host.Outcome State Fault Refusal := .next (flushBuffer .little s)

end Sys2Proof.Machine
end

