-- ==== Sys2Proof/Machine/Pull.lean ====
section
/-! DEFINITION. The pull commands of spec/41_bitbuffer_pull.md: PULLV.U, PULLV.I, PULLV.F, PULLV.D, PULLB, DRAIN.BE,
DRAIN.LE. -/

namespace Sys2Proof.Machine

/-- The common body of PULLV (R72). The container is checked and otherwise not used; IN is never read. -/
def pullValue (k : Kind) (t : TypeOpd) (s : State) : State :=
  match checkField k t s.buf with
  | .error x => s.raise x 0
  | .ok ft => s.pullField ft

/-- PULLB (R77): NO_ITEM when the buffer is not byte-aligned, which is no fault and latches nothing (R145); else the
top byte, whatever order the content was pushed in. -/
def pullByte (s : State) : State :=
  if s.buf.aligned then
    let x := s.buf.extractBe 8
    (s.setBuf x.2).respond .ok (some .u8) x.1
  else s.respond .noItem none 0

/-- PULLV.U (R73). -/
def execPullvU (t : TypeOpd) (s : State) : Host.Outcome State Fault Refusal := .next (pullValue .uint t s)

/-- PULLV.I (R74). -/
def execPullvI (t : TypeOpd) (s : State) : Host.Outcome State Fault Refusal := .next (pullValue .int t s)

/-- PULLV.F (R75). -/
def execPullvF (t : TypeOpd) (s : State) : Host.Outcome State Fault Refusal := .next (pullValue .float t s)

/-- PULLV.D (R76). -/
def execPullvD (t : TypeOpd) (s : State) : Host.Outcome State Fault Refusal := .next (pullValue .double t s)

/-- PULLB (R77). -/
def execPullb (s : State) : Host.Outcome State Fault Refusal := .next (pullByte s)

/-- DRAIN.BE (R78): top byte first. -/
def execDrainBe (s : State) : Host.Outcome State Fault Refusal := .next (s.drainOut .big)

/-- DRAIN.LE (R79): bottom byte first. -/
def execDrainLe (s : State) : Host.Outcome State Fault Refusal := .next (s.drainOut .little)

end Sys2Proof.Machine
end

