-- ==== Sys2Proof/Machine/Push.lean ====
section
/-! DEFINITION. The push commands of spec/40_bitbuffer_push.md: PUSHB.BE, PUSHB.LE, PUSHV.BE, PUSHV.LE. -/

namespace Sys2Proof.Machine

/-- The body of PUSHB.BE and PUSHB.LE (R61, R62). -/
def pushByte (e : Endian) (imm8 : Byte) (s : State) : State :=
  if s.buf.avail + 8 > 64 then s.raise .capacity 0
  else (s.setBuf (s.buf.push e (imm8.setWidth 64) 8)).respond .ok none 0

/-- The body of PUSHV.BE and PUSHV.LE (R63, R64): width 0 is UNSUPPORTED_WIDTH, a width above the free room, 65 to 127
among them, is CAPACITY (C8). `64 - avail` is 0 on the unreachable counts above 64, where every width is refused
(log entry 8). -/
def pushValue (e : Endian) (n : BitVec 7) (data : Word) (s : State) : State :=
  if n.toNat = 0 then s.raise .unsupportedWidth 0
  else if n.toNat > 64 - s.buf.avail then s.raise .capacity 0
  else (s.setBuf (s.buf.push e data n.toNat)).respond .ok none 0

/-- PUSHB.BE (R61). -/
def execPushbBe (imm8 : Byte) (s : State) : Host.Outcome State Fault Refusal := .next (pushByte .big imm8 s)

/-- PUSHB.LE (R62). -/
def execPushbLe (imm8 : Byte) (s : State) : Host.Outcome State Fault Refusal := .next (pushByte .little imm8 s)

/-- PUSHV.BE (R63). -/
def execPushvBe (n : BitVec 7) (data : Word) (s : State) : Host.Outcome State Fault Refusal :=
  .next (pushValue .big n data s)

/-- PUSHV.LE (R64). -/
def execPushvLe (n : BitVec 7) (data : Word) (s : State) : Host.Outcome State Fault Refusal :=
  .next (pushValue .little n data s)

end Sys2Proof.Machine
end

