-- ==== Sys2Proof/Machine/Query.lean ====
section
/-! DEFINITION. The queries of spec/42_bitbuffer_query.md: QEMPTY, QALIGN, MASK, RDBUF, RDAVL. None writes a register or
a stream. -/

namespace Sys2Proof.Machine

/-- QEMPTY (R85). -/
def execQempty (s : State) : Host.Outcome State Fault Refusal := .next (s.respond .ok none (flagWord s.buf.empty))

/-- QALIGN (R86). -/
def execQalign (s : State) : Host.Outcome State Fault Refusal := .next (s.respond .ok none (flagWord s.buf.aligned))

/-- MASK n (R87). -/
def execMask (n : BitVec 7) (s : State) : Host.Outcome State Fault Refusal := .next (s.respond .ok none (mask n.toNat))

/-- RDBUF (R88): the content, never the dead bits. -/
def execRdbuf (s : State) : Host.Outcome State Fault Refusal := .next (s.respond .ok none s.buf.content)

/-- RDAVL (R89). -/
def execRdavl (s : State) : Host.Outcome State Fault Refusal :=
  .next (s.respond .ok none (BitVec.ofNat 64 s.buf.avail))

end Sys2Proof.Machine
end

