-- ==== Sys2Proof/Machine/System.lean ====
section
/-! DEFINITION. The system command of spec/45_system.md: RESET. -/

namespace Sys2Proof.Machine

/-- RESET (R130): the registers return to their reset values, the streams stay; the only way out of a fault (R148). -/
def execReset (s : State) : Host.Outcome State Fault Refusal := .next (s.clear.respond .ok none 0)

end Sys2Proof.Machine
end

