-- ==== Sys2Proof/Machine/Dispatch.lean ====
section
/-! DEFINITION. The dispatch: one arm per command of the opcode map (spec/30_encoding.md R45). -/

namespace Sys2Proof.Machine

def exec (i : Instr) (s : State) : Host.Outcome State Fault Refusal :=
  match i with
  | .pushbBe imm8 => Sys2Proof.Machine.execPushbBe imm8 s
  | .pushbLe imm8 => Sys2Proof.Machine.execPushbLe imm8 s
  | .pushvBe n data => Sys2Proof.Machine.execPushvBe n data s
  | .pushvLe n data => Sys2Proof.Machine.execPushvLe n data s
  | .pullvU t => Sys2Proof.Machine.execPullvU t s
  | .pullvI t => Sys2Proof.Machine.execPullvI t s
  | .pullvF t => Sys2Proof.Machine.execPullvF t s
  | .pullvD t => Sys2Proof.Machine.execPullvD t s
  | .pullb => Sys2Proof.Machine.execPullb s
  | .drainBe => Sys2Proof.Machine.execDrainBe s
  | .drainLe => Sys2Proof.Machine.execDrainLe s
  | .qempty => Sys2Proof.Machine.execQempty s
  | .qalign => Sys2Proof.Machine.execQalign s
  | .mask n => Sys2Proof.Machine.execMask n s
  | .rdbuf => Sys2Proof.Machine.execRdbuf s
  | .rdavl => Sys2Proof.Machine.execRdavl s
  | .decU t => Sys2Proof.Machine.execDecU t s
  | .decI t => Sys2Proof.Machine.execDecI t s
  | .decF t => Sys2Proof.Machine.execDecF t s
  | .decD t => Sys2Proof.Machine.execDecD t s
  | .encU t data => Sys2Proof.Machine.execEncU t data s
  | .encI t data => Sys2Proof.Machine.execEncI t data s
  | .encF t data => Sys2Proof.Machine.execEncF t data s
  | .encD t data => Sys2Proof.Machine.execEncD t data s
  | .flushBe => Sys2Proof.Machine.execFlushBe s
  | .flushLe => Sys2Proof.Machine.execFlushLe s
  | .reset => Sys2Proof.Machine.execReset s

end Sys2Proof.Machine
end

