-- ==== Sys2Proof/Machine/Step.lean ====
section
/-! DEFINITION. One step: the command at the head of the command port, whole (spec/10_state.md R15, R37;
spec/30_encoding.md R47; spec/45_system.md R132). -/

namespace Sys2Proof.Machine

/-- One command of the port is answered. With none waiting the BBC "is idle between commands and holds its state"
(spec/60_exceptions.md R152; log entry 2). -/
def step (s : State) : Host.Outcome State Fault Refusal :=
  match fetch s with
  | .idle => .next s
  | .answered t => .next t
  | .run i t => exec i t

/-- The host presents the command whose bits are `w` as the next one (log entry 4). -/
def State.withFetchWord (s : State) (nbits w : Nat) : State := s.present (commandOfBits nbits w)

end Sys2Proof.Machine
end

