-- ==== Sys2Proof/Machine/Assembler.lean ====
section
/-! DEFINITION. The text side of spec/30_encoding.md, in scope by spec/00_scope.md R2 (e): the type descriptor grammar
and its inverse (R53 to R56), the value operand (R57), and the assembler lines of R52. It is the host's; the BBC sees
only the command (R55). Text is a list of characters. -/

namespace Sys2Proof.Machine

/-- The assembler's errors. The first two are the kinds R55 names for a descriptor. -/
inductive AsmError where
  /-- R55: a width of 0 or above 64. -/
  | unsupportedWidth
  /-- R55: every other defect of a descriptor. -/
  | typeFormat
  /-- A line that is none of R52's forms (log entry 14). -/
  | badLine
  /-- A number outside the operand's range (R52; log entry 14). -/
  | outOfRange
deriving DecidableEq, Repr

/-! ## Numerals -/

/-- A character's value as a hexadecimal digit. -/
def hexDigit (c : Char) : Option Nat :=
  if c.isDigit then some (c.toNat - '0'.toNat)
  else if 'a' ≤ c ∧ c ≤ 'f' then some (c.toNat - 'a'.toNat + 10)
  else none

/-- Digits in a base, most significant first; none on an empty list or a character that is no digit of the base. -/
def digitsIn (base : Nat) (cs : List Char) : Option Nat :=
  if cs = [] then none
  else cs.foldl (fun acc c => acc.bind fun n => (hexDigit c).bind fun d => if d < base then some (base * n + d) else none)
    (some 0)

/-- A decimal numeral. -/
def decimal (cs : List Char) : Option Nat := digitsIn 10 cs

/-- The decimal numeral of a number, no leading zero. -/
def decimalText (n : Nat) : List Char := Nat.toDigits 10 n

/-- A non-negative operand: decimal or 0x hexadecimal, leading zeros accepted (log entry 14). -/
def number (cs : List Char) : Option Nat :=
  match cs with
  | '0' :: 'x' :: ds => digitsIn 16 ds
  | ds => decimal ds

/-- The `value` operand (R57): decimal, optionally negative, or 0x hexadecimal; DATA = value mod 2^64. -/
def valueOperand (cs : List Char) : Option Word :=
  match cs with
  | '-' :: ds => (decimal ds).map fun n => BitVec.ofInt 64 (-(n : Int))
  | ds => (number ds).map (BitVec.ofNat 64)

/-- The `value` operand of a Float or Double (R57): its bit pattern in hexadecimal, and nothing else (D35; log entry 19).
-/
def patternOperand (cs : List Char) : Option Word :=
  match cs with
  | '0' :: 'x' :: ds => (digitsIn 16 ds).map (BitVec.ofNat 64)
  | _ => none

/-! ## The type descriptor -/

/-- A descriptor that matches the grammar of R53, before its numbers are checked. -/
structure DescText where
  kind   : Kind
  width  : Option Nat
  e      : Endian
  suffix : Option Nat
deriving DecidableEq, Repr

/-- The kind keyword at the front. -/
def stripKind : List Char → Option (Kind × List Char)
  | 'u' :: 'i' :: 'n' :: 't' :: r => some (.uint, r)
  | 'i' :: 'n' :: 't' :: r => some (.int, r)
  | 'f' :: 'l' :: 'o' :: 'a' :: 't' :: r => some (.float, r)
  | 'd' :: 'o' :: 'u' :: 'b' :: 'l' :: 'e' :: r => some (.double, r)
  | _ => none

/-- The endianness token at the front. -/
def stripOrder : List Char → Option (Endian × List Char)
  | '_' :: 'b' :: 'e' :: r => some (.big, r)
  | '_' :: 'l' :: 'e' :: r => some (.little, r)
  | _ => none

/-- The container suffix, to the end of the text: none written, or a colon and a numeral. -/
def parseSuffix : List Char → Option (Option Nat)
  | [] => some none
  | ':' :: ds => (decimal ds).map some
  | _ => none

/-- The grammar of R53, case-insensitive; no white space and no sign (N14). -/
def parseDesc (text : List Char) : Option DescText :=
  (stripKind (text.map Char.toLower)).bind fun (k, r) =>
    let ds := r.takeWhile Char.isDigit
    (stripOrder (r.dropWhile Char.isDigit)).bind fun (e, r) =>
      (parseSuffix r).map fun c => ⟨k, decimal ds, e, c⟩

/-- The container a suffix names. -/
def containerOfBits (n : Nat) : Option Container :=
  if n = 8 then some .c8 else if n = 16 then some .c16 else if n = 32 then some .c32
  else if n = 64 then some .c64 else none

/-- The numbers of an Int or Uint descriptor (R54, R55): the width before the container (log entry 13). -/
def resolveInt (mk : Nat → Endian → Container → FieldType) (d : DescText) : Except AsmError FieldType :=
  match d.width with
  | none => .error .typeFormat
  | some n =>
    if n = 0 ∨ n > 64 then .error .unsupportedWidth
    else
      match d.suffix with
      | none => .ok (mk n d.e (.smallestFor n))
      | some m =>
        match containerOfBits m with
        | none => .error .typeFormat
        | some c => if c.bits < n then .error .typeFormat else .ok (mk n d.e c)

/-- The FieldType of a descriptor that matches the grammar (R53, R54, R55). -/
def resolve (d : DescText) : Except AsmError FieldType :=
  match d.kind with
  | .uint => resolveInt .uint d
  | .int => resolveInt .int d
  | .float => if d.width = none ∧ d.suffix = none then .ok (.float d.e) else .error .typeFormat
  | .double => if d.width = none ∧ d.suffix = none then .ok (.double d.e) else .error .typeFormat

/-- The FieldType a type descriptor string resolves to (R53), or its error (R55). -/
def parseType (text : List Char) : Except AsmError FieldType :=
  match parseDesc text with
  | none => .error .typeFormat
  | some d => resolve d

/-- `_be` or `_le`. -/
def orderText : Endian → List Char
  | .big => ['_', 'b', 'e']
  | .little => ['_', 'l', 'e']

/-- The text of an Int or Uint descriptor: the container only when it is not the default (R56). -/
def formatInt (name : List Char) (n : Nat) (e : Endian) (c : Container) : List Char :=
  name ++ decimalText n ++ orderText e ++ (if c = .smallestFor n then [] else ':' :: decimalText c.bits)

/-- Formatting, lower case (R56). -/
def formatType : FieldType → List Char
  | .uint n e c => formatInt ['u', 'i', 'n', 't'] n e c
  | .int n e c => formatInt ['i', 'n', 't'] n e c
  | .float e => ['f', 'l', 'o', 'a', 't'] ++ orderText e
  | .double e => ['d', 'o', 'u', 'b', 'l', 'e'] ++ orderText e

/-! ## Lines -/

/-- The assembler's mnemonics (R52); PULLV, DEC and ENC take their suffix from the type. -/
inductive AsmOp where
  | pushb (e : Endian)
  | pushv (e : Endian)
  | pullv
  | pullb
  | drain (e : Endian)
  | qempty
  | qalign
  | mask
  | rdbuf
  | rdavl
  | dec
  | enc
  | flush (e : Endian)
  | reset
  | raw
deriving DecidableEq, Repr

/-- The names of R52, lower case. -/
def asmOps : List (String × AsmOp) :=
  [("pushb.be", .pushb .big), ("pushb.le", .pushb .little), ("pushv.be", .pushv .big), ("pushv.le", .pushv .little),
   ("pullv", .pullv), ("pullb", .pullb), ("drain.be", .drain .big), ("drain.le", .drain .little)] ++
  [("qempty", .qempty), ("qalign", .qalign), ("mask", .mask), ("rdbuf", .rdbuf), ("rdavl", .rdavl), ("dec", .dec),
   ("enc", .enc), ("flush.be", .flush .big), ("flush.le", .flush .little), ("reset", .reset), ("raw", .raw)]

/-- A number of at most `hi`. -/
def boundedNumber (hi : Nat) (cs : List Char) : Except AsmError Nat :=
  match number cs with
  | none => .error .badLine
  | some n => if n ≤ hi then .ok n else .error .outOfRange

/-- An operand that was read, or a bad line. -/
def orBad (v : Option Word) : Except AsmError Word :=
  match v with
  | none => .error .badLine
  | some v => .ok v

/-- The `value` operand of ENC, by the type's kind (R57). -/
def valueFor (t : FieldType) (cs : List Char) : Option Word := if t.floating then patternOperand cs else valueOperand cs

/-- The command of a mnemonic and its operands (R52). RAW's data is read as a value of R57, and is 0 when absent; of two
bad operands the first one's error is reported (log entry 14). -/
def assembleOp : AsmOp → List (List Char) → Except AsmError Command
  | .pushb e, [a] => (boundedNumber 255 a).map fun v => encode (.pushb e (BitVec.ofNat 8 v))
  | .pushv e, [a, v] =>
    (boundedNumber 127 a).bind fun n => (orBad (valueOperand v)).map fun d => encode (.pushv e (BitVec.ofNat 7 n) d)
  | .pullv, [t] => (parseType t).map fun ft => encode (.pullv ft.kind ft.typeOpd)
  | .pullb, [] => .ok (encode .pullb)
  | .drain e, [] => .ok (encode (.drain e))
  | .qempty, [] => .ok (encode .qempty)
  | .qalign, [] => .ok (encode .qalign)
  | .mask, [a] => (boundedNumber 127 a).map fun n => encode (.mask (BitVec.ofNat 7 n))
  | .rdbuf, [] => .ok (encode .rdbuf)
  | .rdavl, [] => .ok (encode .rdavl)
  | .dec, [t] => (parseType t).map fun ft => encode (.dec ft.kind ft.typeOpd)
  | .enc, [t, v] =>
    (parseType t).bind fun ft => (orBad (valueFor ft v)).map fun d => encode (.enc ft.kind ft.typeOpd d)
  | .flush e, [] => .ok (encode (.flush e))
  | .reset, [] => .ok (encode .reset)
  | .raw, [w] => (boundedNumber (2 ^ 32 - 1) w).map fun n => ⟨BitVec.ofNat 32 n, 0⟩
  | .raw, [w, v] =>
    (boundedNumber (2 ^ 32 - 1) w).bind fun n => (orBad (valueOperand v)).map fun d => ⟨BitVec.ofNat 32 n, d⟩
  | _, _ => .error .badLine

/-- A blank between the parts of a line. -/
def isBlank (c : Char) : Bool := c == ' ' || c == '\t' || c == '\r'

/-- The text without blanks at its two ends. -/
def trim (cs : List Char) : List Char := ((cs.dropWhile isBlank).reverse.dropWhile isBlank).reverse

/-- The pieces between the occurrences of a character; there is always at least one. -/
def splitAtChar (sep : Char) : List Char → List (List Char)
  | [] => [[]]
  | c :: cs =>
    match splitAtChar sep cs with
    | [] => [[c]]
    | p :: ps => if c = sep then [] :: p :: ps else (c :: p) :: ps

/-- One line (R52): a comment starts at a semicolon, mnemonics are case-insensitive, operands are separated by commas.
The line is read in lower case, a 0X prefix included (log entry 14). None where the line holds no command. -/
def assembleLine (line : List Char) : Except AsmError (Option Command) :=
  let body := (trim (line.takeWhile (· ≠ ';'))).map Char.toLower
  if body = [] then .ok none
  else
    let name := body.takeWhile (fun c => !isBlank c)
    let rest := trim (body.dropWhile (fun c => !isBlank c))
    let operands := if rest = [] then [] else (splitAtChar ',' rest).map trim
    match asmOps.find? (fun p => p.1.toList == name) with
    | none => .error .badLine
    | some p => (assembleOp p.2 operands).map some

/-- A program text, one command a line (R52). One bad line rejects the text, and the last bad line's error is reported
(log entry 18). -/
def assembleText (text : List Char) : Except AsmError (List Command) :=
  (splitAtChar '\n' text).foldr
    (fun line acc => acc.bind fun cs => (assembleLine line).map fun
      | none => cs
      | some c => c :: cs)
    (.ok [])

end Sys2Proof.Machine
end

