-- ==== Sys2Proof/Machine/Value.lean ====
section
/-! DEFINITION. The Value of spec/43_fieldtype_value.md: the number it stands for (R98, R104) and the 64-bit word the
host forms from it (R105). The BBC moves patterns and computes none of this; a reader of a response does. -/

namespace Sys2Proof.Machine

/-- A Value: a tag and a payload, a bit pattern of the tag's width (R98). -/
structure Value where
  tag     : Tag
  payload : Word
deriving DecidableEq, Repr

/-- The payload fits the tag's width (R98). -/
def Value.wellFormed (v : Value) : Bool := v.payload.toNat < 2 ^ v.tag.width

/-- The class of a tag, `vtag[3:2]`: unsigned, signed or float (R49). -/
inductive TagClass where
  | unsigned
  | signed
  | float
deriving DecidableEq, Repr

def Tag.cls : Tag → TagClass
  | .u8 | .u16 | .u32 | .u64 => .unsigned
  | .i8 | .i16 | .i32 | .i64 => .signed
  | .f32 | .f64 => .float

/-- What an IEEE-754 pattern stands for: (−1)^negative · significand · 2^exponent when finite. -/
inductive FloatNumber where
  | finite   (negative : Bool) (significand : Nat) (exponent : Int)
  | infinite (negative : Bool)
  | nan
deriving DecidableEq, Repr

/-- The pattern read with `ew` exponent bits biased by `bias` below the sign and `fw` fraction bits below them (R104).
R104 gives the layout; the reading of the all-zeros and all-ones exponents is IEEE-754's, PRESUMED (log entry 16). -/
def readFloat (ew fw bias : Nat) (p : Word) : FloatNumber :=
  let sign := p.getLsbD (ew + fw)
  let ex := p.toNat / 2 ^ fw % 2 ^ ew
  let fr := p.toNat % 2 ^ fw
  if ex = 2 ^ ew - 1 then (if fr = 0 then .infinite sign else .nan)
  else if ex = 0 then .finite sign fr (1 - (bias : Int) - fw)
  else .finite sign (2 ^ fw + fr) ((ex : Int) - bias - fw)

/-- The number a Value stands for. -/
inductive Number where
  | int   (z : Int)
  | float (x : FloatNumber)
deriving DecidableEq, Repr

/-- R98: U tags unsigned, I tags two's complement, F32 and F64 the IEEE-754 number (R104). -/
def Value.number (v : Value) : Number :=
  match v.tag with
  | .u8 | .u16 | .u32 | .u64 => .int v.payload.toNat
  | .i8 | .i16 | .i32 | .i64 => .int (signedOf v.tag.width v.payload)
  | .f32 => .float (readFloat 8 23 127 v.payload)
  | .f64 => .float (readFloat 11 52 1023 v.payload)

/-- `raw64` (R105): the payload zero-extended for a U tag, sign-extended for an I tag, the pattern for a float. -/
def Value.raw64 (v : Value) : Word :=
  match v.tag.cls with
  | .unsigned | .float => v.payload
  | .signed => sextTo 64 v.tag.width v.payload

/-- The Value a response carries, if any (R48). -/
def Response.value (r : Response) : Option Value := r.vtag.map fun t => ⟨t, r.data⟩

end Sys2Proof.Machine
end

