-- ==== Sys2Proof/Machine/Template.lean ====
section
/-! DEFINITION. The host's side of a run (spec/45_system.md R132, spec/43_fieldtype_value.md R106,
spec/70_reset_and_hazards.md R157, spec/60_exceptions.md R151): a program is a list of commands; a template is decoded
by one DEC per entry and a record encoded by one ENC per field and a FLUSH. The BBC stores no template (R3). -/

namespace Sys2Proof.Machine

/-- A Field to encode: a FieldType and the word the host forms from the value (R105, R106). -/
structure RecordField where
  typ  : FieldType
  data : Word
deriving DecidableEq, Repr

/-- The ENC command of a Field (R106, R157). -/
def RecordField.command (f : RecordField) : Command := encode (.enc f.typ.kind f.typ.typeOpd f.data)

/-- The DEC command of a template entry (R106, R157). -/
def entryCommand (t : FieldType) : Command := encode (.dec t.kind t.typeOpd)

/-- A record, or several, encoded: one ENC per field in order, then one FLUSH in the given order (R124, R157, R169). -/
def encodeProgram (fs : List RecordField) (e : Endian) : List Command := fs.map RecordField.command ++ [encode (.flush e)]

/-- A template decoded: one DEC per entry in order (R157). -/
def decodeProgram (ts : List FieldType) : List Command := ts.map entryCommand

/-- The bits of a record (R124). -/
def totalBits (ts : List FieldType) : Nat := (ts.map FieldType.numBits).sum

/-- A machine at power-on with what the host supplies: its parameter, its IN and its program (R21, R132, R156). -/
def State.powerOn (cfg : Config) (inp : List Byte) (prog : List Command) : State :=
  { State.reset with cfg := cfg, input := inp, commands := prog }

/-- The execution of every command waiting at the port, in order (R132). -/
def runProgram (s : State) : Host.Outcome State Fault Refusal := Sys2Proof.core.run s.commands.length s

/-- How the host classes END_OF_INPUT (R151). -/
inductive EndClass where
  | cleanEnd
  | hardError
deriving DecidableEq, Repr

/-- A clean end when the DEC was for the first entry of the template and no byte was left (R151). -/
def classifyEnd (firstEntry : Bool) (available : Word) : EndClass :=
  if firstEntry && available == 0 then .cleanEnd else .hardError

/-- A group of R125: one endianness, one container, widths that sum to the container, a Float or Double alone. -/
def tilesContainer (e : Endian) (c : Container) (ts : List FieldType) : Bool :=
  ts.all (fun t => t.wellFormed && t.endian == e && t.container == c) &&
  totalBits ts == c.bits && (ts.all (fun t => !t.floating) || ts.length == 1)

end Sys2Proof.Machine
end

