-- ==== Sys2Proof/Safety.lean ====
section
/-! DEFINITION. The terms the statements are made in, written from the spec's words and not from the meanings: the
invariant every step keeps (spec/10_state.md R12, R14), the observational equivalence of R23, bytes as numbers, what a
push, a pull and an interpretation do to the content as a number, which encodings are reserved (R46), and the priority
list of R146. -/

namespace Sys2Proof.Machine

/-! ## Whole states -/

/-- 0 ≤ bits_avail ≤ 64 (R12), and `fault` holds 0 or a code 1 to 7 (R14). -/
abbrev State.Inv (s : State) : Prop := s.buf.avail ≤ 64 ∧ s.fault.toNat ≤ 7

/-- Two states the command set cannot tell apart (R23): everything equal but the dead bits of `bits`. -/
abbrev State.SameObservably (s t : State) : Prop :=
  s.buf.avail = t.buf.avail ∧ s.buf.content = t.buf.content ∧ s.fault = t.fault ∧ s.input = t.input ∧
  s.output = t.output ∧ s.commands = t.commands ∧ s.responses = t.responses ∧ s.cfg = t.cfg

/-! ## Bytes and numbers -/

/-- The `k` bytes of a number: most significant first for big, least significant first for little (R29, R30). -/
def bytesOf : Endian → Nat → Nat → List Byte
  | .big, k, v => (List.range k).map fun i => BitVec.ofNat 8 (v / 256 ^ (k - 1 - i))
  | .little, k, v => (List.range k).map fun i => BitVec.ofNat 8 (v / 256 ^ i)

/-- The number bytes of a stream stand for: `b[0] ++ ... ++ b[k−1]` for big, `b[k−1] ++ ... ++ b[0]` for little (R29,
R30, R111). -/
def numberOf : Endian → List Byte → Nat
  | .big, bs => bs.foldl (fun a b => a * 256 + b.toNat) 0
  | .little, bs => bs.foldr (fun b a => b.toNat + 256 * a) 0

/-- The bits of a run of fields, packed contiguously in declaration order, as one number of any length: the first field
on top for big, at the bottom for little (R124). -/
def packed : Endian → List RecordField → Nat
  | .big, fs => fs.foldl (fun a f => a * 2 ^ f.typ.numBits + f.data.toNat % 2 ^ f.typ.numBits) 0
  | .little, fs => fs.foldr (fun f a => f.data.toNat % 2 ^ f.typ.numBits + 2 ^ f.typ.numBits * a) 0

/-! ## Push, pull, interpretation -/

/-- `b'` is `b` after a push of the low `n` bits of `v`: below the content for big, above it for little (R29, R30, R60).
-/
abbrev Pushed (e : Endian) (b b' : BitBuffer) (n v : Nat) : Prop :=
  b'.avail = b.avail + n ∧
  b'.content.toNat =
    match e with
    | .big => b.content.toNat * 2 ^ n + v % 2 ^ n
    | .little => b.content.toNat + v % 2 ^ n * 2 ^ b.avail

/-- `v` is the `n` bits taken from `b`, the top ones for big and the bottom ones for little, and `b'` is what is left
(R70, R71); a big-endian pull does not write `bits`. -/
abbrev Pulled (e : Endian) (b b' : BitBuffer) (n : Nat) (v : Word) : Prop :=
  b'.avail = b.avail - n ∧
  match e with
  | .big => v.toNat = b.content.toNat / 2 ^ (b.avail - n) ∧
      b'.content.toNat = b.content.toNat % 2 ^ (b.avail - n) ∧ b'.bits = b.bits
  | .little => v.toNat = b.content.toNat % 2 ^ n ∧ b'.content.toNat = b.content.toNat / 2 ^ n

/-- A TD that R44 accepts for a kind: a width of 1 to 64 that fits the container; no width and the canonical container
for Float and Double. -/
abbrev LegalTd (k : Kind) (t : TypeOpd) : Prop :=
  match k with
  | .uint | .int => 1 ≤ t.nb.toNat ∧ t.nb.toNat ≤ 64 ∧ t.nb.toNat ≤ 8 * 2 ^ t.cc.toNat
  | .float => t.nb = 0 ∧ t.cc = 2
  | .double => t.nb = 0 ∧ t.cc = 3

/-- The width in bits a TD asks for (R95). -/
def requestWidth (k : Kind) (t : TypeOpd) : Nat :=
  match k with
  | .uint | .int => t.nb.toNat
  | .float => 32
  | .double => 64

/-- A Float or Double must find a whole number of bytes (R33). -/
abbrev AlignedFor (k : Kind) (b : BitBuffer) : Prop :=
  match k with
  | .uint | .int => True
  | .float | .double => b.avail % 8 = 0

/-- The number an `n`-bit pattern stands for in two's complement (R6). -/
def twosComplement (n v : Nat) : Int := if 2 ^ (n - 1) ≤ v then (v : Int) - 2 ^ n else v

/-- The smallest of the four sizes that holds `n` bits (R99). -/
abbrev SmallestTag (c : TagClass) (n : Nat) (g : Tag) : Prop :=
  g.cls = c ∧ n ≤ g.width ∧ (g.width = 8 ∨ g.width / 2 < n)

/-- The Value that `n` extracted bits `v` give (R99 to R103): a Uint's number is `v`; an Int's number is `v` read in
`n`-bit two's complement under INT_NARROW_EXT = sign, `v` itself under zero; a float pattern passes through. -/
abbrev Interpreted (x : NarrowExt) (k : Kind) (n : Nat) (v : Word) (g : Tag) (p : Word) : Prop :=
  match k with
  | .uint => SmallestTag .unsigned n g ∧ p = v
  | .int => SmallestTag .signed n g ∧ p.toNat < 2 ^ g.width ∧
      (match x with
        | .sign => twosComplement g.width p.toNat = twosComplement n v.toNat
        | .zero => p = v)
  | .float => g = .f32 ∧ p = v
  | .double => g = .f64 ∧ p = v

/-! ## Reserved encodings (R46) -/

/-- The words R46 lists, in its order. -/
abbrev ReservedEncoding (cw : BitVec 32) : Prop :=
  let op := (cw.extractLsb' 28 4).toNat
  op = 0x0 ∨ cw.extractLsb' 12 16 ≠ 0 ∨
  (op ∈ [0x5, 0x7, 0x8, 0xA, 0xB, 0xF] ∧ cw.extractLsb' 0 12 ≠ 0) ∨
  (op ∈ [0x1, 0x2] ∧ cw.extractLsb' 8 4 ≠ 0) ∨
  (op ∈ [0x6, 0xE] ∧ (cw.extractLsb' 3 9 ≠ 0 ∨ cw.extractLsb' 0 2 ≠ 0)) ∨
  (op = 0x3 ∧ (cw.extractLsb' 3 2 ≠ 0 ∨ cw.extractLsb' 0 2 ≠ 0)) ∨
  (op = 0x9 ∧ (cw.extractLsb' 0 5 ≠ 0 ∨ 64 < (cw.extractLsb' 5 7).toNat))

/-! ## Priority (R146) -/

end Sys2Proof.Machine

namespace Sys2Proof

open Machine

/-- The kind and TD of a format-T command. -/
def Instr.typed : Instr → Option (Kind × TypeOpd)
  | .pullvU t | .decU t | .encU t _ => some (.uint, t)
  | .pullvI t | .decI t | .encI t _ => some (.int, t)
  | .pullvF t | .decF t | .encF t _ => some (.float, t)
  | .pullvD t | .decD t | .encD t _ => some (.double, t)
  | _ => none

/-- The width a command pushes: PUSHB, PUSHV, ENC. -/
def Instr.pushWidth : Instr → Option Nat
  | .pushbBe _ | .pushbLe _ => some 8
  | .pushvBe n _ | .pushvLe n _ => some n.toNat
  | .encU t _ => some (requestWidth .uint t)
  | .encI t _ => some (requestWidth .int t)
  | .encF t _ => some (requestWidth .float t)
  | .encD t _ => some (requestWidth .double t)
  | _ => none

/-- The width PULLV pulls. -/
def Instr.pullWidth : Instr → Option Nat
  | .pullvU t => some (requestWidth .uint t)
  | .pullvI t => some (requestWidth .int t)
  | .pullvF t => some (requestWidth .float t)
  | .pullvD t => some (requestWidth .double t)
  | _ => none

/-- The width DEC pulls and the bytes it refills, container/8 = 2^cc. -/
def Instr.decWidth : Instr → Option (Nat × Nat)
  | .decU t => some (requestWidth .uint t, 2 ^ t.cc.toNat)
  | .decI t => some (requestWidth .int t, 2 ^ t.cc.toNat)
  | .decF t => some (requestWidth .float t, 2 ^ t.cc.toNat)
  | .decD t => some (requestWidth .double t, 2 ^ t.cc.toNat)
  | _ => none

/-- Row 3 of R146: "width 0 or > 64 (check_td; PUSHV n = 0)". -/
def Instr.badWidth (i : Instr) : Bool :=
  match i, i.typed with
  | .pushvBe n _, _ | .pushvLe n _, _ => n.toNat == 0
  | _, some (.uint, t) | _, some (.int, t) => t.nb.toNat == 0 || decide (t.nb.toNat > 64)
  | _, _ => false

/-- Row 4: "TD otherwise ill-formed (check_td)". -/
def Instr.badFormat (i : Instr) : Bool :=
  match i.typed with
  | none => false
  | some (.uint, t) | some (.int, t) => decide (t.nb.toNat > 8 * 2 ^ t.cc.toNat)
  | some (.float, t) => t.nb != 0 || t.cc != 2
  | some (.double, t) => t.nb != 0 || t.cc != 3

/-- Row 5: "Float/Double and bits_avail mod 8 ≠ 0". -/
def Instr.badAlignment (i : Instr) (s : State) : Bool :=
  match i.typed with
  | some (.float, _) | some (.double, _) => s.buf.avail % 8 != 0
  | _ => false

/-- Row 6: "DEC, buffer empty, IN too short". -/
def Instr.noInput (i : Instr) (s : State) : Bool :=
  match i.decWidth with
  | some (_, k) => s.buf.avail == 0 && decide (s.input.length < k)
  | none => false

/-- Row 7: "push or ENC, n > 64 − bits_avail". -/
def Instr.noRoom (i : Instr) (s : State) : Bool :=
  match i.pushWidth with
  | some n => decide (s.buf.avail + n > 64)
  | none => false

/-- Row 8: "PULLV or DEC, n > bits_avail"; "UNDERFLOW in DEC needs a non-empty buffer". -/
def Instr.tooFewBits (i : Instr) (s : State) : Bool :=
  match i.pullWidth, i.decWidth with
  | some n, _ => decide (n > s.buf.avail)
  | _, some (n, _) => s.buf.avail != 0 && decide (n > s.buf.avail)
  | _, _ => false

/-- The status of a command that executes: the first condition of R146 that holds, else NO_ITEM for PULLB off a byte
boundary (R145), else OK. -/
def Instr.firstStatus (i : Instr) (s : State) : Status :=
  if i.badWidth then .raised .unsupportedWidth
  else if i.badFormat then .raised .typeFormat
  else if i.badAlignment s then .raised .misalignedFloat
  else if i.noInput s then .raised .endOfInput
  else if i.noRoom s then .raised .capacity
  else if i.tooFewBits s then .raised .underflow
  else if i = .pullb ∧ (s.buf.avail = 0 ∨ s.buf.avail % 8 ≠ 0) then .noItem
  else .ok

end Sys2Proof

namespace Sys2Proof.Machine

/-- Rows 1 and 2 of R146 before it. -/
def firstStatus (c : Command) (s : State) : Status :=
  if s.fault ≠ 0 ∧ c.cw ≠ 0xF0000000 then .faulted
  else
    match decode c with
    | .error _ => .raised .illegalCommand
    | .ok i => i.firstStatus s

/-! ## Who may do what -/

/-- The fault causes R135's table gives a command, by its column "raised by". -/
def mayRaise (m : Mnemonic) : List FaultCause :=
  match m with
  | .pushbBe | .pushbLe => [.capacity]
  | .pushvBe | .pushvLe => [.capacity, .unsupportedWidth]
  | .pullvU | .pullvI => [.unsupportedWidth, .typeFormat, .underflow]
  | .pullvF | .pullvD => [.typeFormat, .misalignedFloat, .underflow]
  | .decU | .decI => [.unsupportedWidth, .typeFormat, .endOfInput, .underflow]
  | .decF | .decD => [.typeFormat, .endOfInput, .misalignedFloat, .underflow]
  | .encU | .encI => [.capacity, .unsupportedWidth, .typeFormat]
  | .encF | .encD => [.capacity, .typeFormat, .misalignedFloat]
  | .pullb | .drainBe | .drainLe | .qempty | .qalign | .mask | .rdbuf | .rdavl | .flushBe | .flushLe | .reset => []

/-- The commands that write OUT (R25). -/
def writesOut : List Mnemonic := [.drainBe, .drainLe, .encU, .encI, .encF, .encD, .flushBe, .flushLe]

/-- The commands that read IN (R25). -/
def readsIn : List Mnemonic := [.decU, .decI, .decF, .decD]

end Sys2Proof.Machine
end

