-- ==== Sys2Proof/Certificates/Slice0/Obligations.lean ====
section
/-! DEFINITION. The statements for the provers. A statement about an instruction gives the whole next state: every field
not named in the record update is unchanged, so each is its own frame. `s`, `t` range over all states, reachable or
not, and so over both settings of INT_NARROW_EXT (log entry 1). -/

open Sys2Proof Sys2Proof.Machine

/-! ## Encoding -/

/-- R40 to R45: for every encodable command, decoding the encoding gives it back, with every operand at every value. -/
def Obligations.DecodeOfEncode : Prop :=
  ∀ i : Instr, i.wellFormed = true → decode (encode i) = .ok i

/-- R40, R42: the other direction. A command that decodes is the encoding of what it decodes to, in every bit of CW and,
where the command reads DATA, in every bit of DATA. -/
def Obligations.EncodeOfDecode : Prop :=
  ∀ (c : Command) (i : Instr), decode c = .ok i →
    i.wellFormed = true ∧ (encode i).cw = c.cw ∧ (i.readsData = true → (encode i).data = c.data)

/-- R45: a CW selects a row when CW AND mask = match (and, for MASK, n ≤ 64), whatever DATA holds. The numbers of the
table stand in Mnemonic.row. -/
def Obligations.WordSelectsRow : Prop :=
  ∀ (c : Command) (m : Mnemonic),
    (∃ i, decode c = .ok i ∧ i.mnemonic = m) ↔
      (c.cw &&& m.row.mask = m.row.pattern ∧ (m = .mask → (c.cw.extractLsb' 5 7).toNat ≤ 64))

/-- R46, R143: the illegal words are exactly those R46 lists, and each raises ILLEGAL_COMMAND and changes nothing else;
none executes as a no-op. -/
def Obligations.ReservedEncodingsAreIllegal : Prop :=
  (∀ c : Command, (∃ x, decode c = .error x) ↔ ReservedEncoding c.cw) ∧
  ∀ (s : State) (c : Command) (rest : List Command),
    s.commands = c :: rest → s.fault = 0 → ReservedEncoding c.cw →
      step s = .next { s with commands := rest, fault := 7,
                              responses := s.responses ++ [⟨.raised .illegalCommand, none, 0⟩] }

/-- Words written out from R41 to R45 decode to the commands they stand for, one or more of every family, and two words
of R46 are rejected; the rejections' names are the model's (log entry 12, DESIGN CHOICE). -/
def Obligations.WrittenWordsDecode : Prop :=
  decode ⟨0x10000034, 0⟩ = .ok (.pushbBe 0x34) ∧ decode ⟨0x30000064, 7⟩ = .ok (.pushvLe 3 7) ∧
  decode ⟨0x40000089, 0⟩ = .ok (.pullvI ⟨4, 1, .big⟩) ∧ decode ⟨0x60000004, 0⟩ = .ok .drainLe ∧
  decode ⟨0x90000800, 0⟩ = .ok (.mask 64) ∧ decode ⟨0xC000001F, 0⟩ = .ok (.decD ⟨0, 3, .little⟩) ∧
  decode ⟨0xD000020C, 0x1234⟩ = .ok (.encU ⟨16, 1, .little⟩ 0x1234) ∧ decode ⟨0xF0000000, 5⟩ = .ok .reset ∧
  decode ⟨0, 0⟩ = .error .reservedOpcode ∧ decode ⟨0x40001060, 0⟩ = .error .reservedBits

/-- R49, R50: the codes of the ten tags, of NONE and of the ten statuses. `vtag[3:2]` is the class (0 unsigned, 1 signed,
2 float) and `vtag[1:0]` the size code, the width being 8 · 2^code. -/
def Obligations.ResponseCodes : Prop :=
  [none, some .u8, some .u16, some .u32, some .u64, some .i8, some .i16, some .i32, some .i64, some .f32,
      some .f64].map vtagCode = [0xF, 0x0, 0x1, 0x2, 0x3, 0x4, 0x5, 0x6, 0x7, 0xA, 0xB] ∧
  (∀ g : Tag, ((vtagCode (some g)).extractLsb' 2 2).toNat =
      (match g.cls with | .unsigned => 0 | .signed => 1 | .float => 2) ∧
    g.width = 8 * 2 ^ ((vtagCode (some g)).extractLsb' 0 2).toNat) ∧
  [Status.ok, .raised .capacity, .raised .unsupportedWidth, .raised .typeFormat, .raised .endOfInput,
      .raised .misalignedFloat, .raised .underflow, .raised .illegalCommand, .faulted, .noItem].map Status.code =
    [0, 1, 2, 3, 4, 5, 6, 7, 8, 9]

/-- R44: `check_td` accepts exactly the legal TDs and gives the FieldType they carry; on any other TD every command of
format T raises, whatever the buffer and IN hold: UNSUPPORTED_WIDTH before TYPE_FORMAT, and nothing else changes. -/
def Obligations.CheckTdIsR44 : Prop :=
  ∀ (k : Kind) (t : TypeOpd),
    (LegalTd k t → ∃ ft, checkTd k t = .ok ft ∧ ft.wellFormed = true ∧ ft.kind = k ∧ ft.endian = t.e ∧
        ft.container.bits = 8 * 2 ^ t.cc.toNat ∧ ft.numBits = requestWidth k t ∧ ft.typeOpd = t) ∧
    (¬ LegalTd k t →
      let x : FaultCause :=
        if (k = .uint ∨ k = .int) ∧ (t.nb.toNat = 0 ∨ t.nb.toNat > 64) then .unsupportedWidth else .typeFormat
      checkTd k t = .error x ∧
      ∀ (s : State) (data : Word),
        exec (.pullv k t) s = .next { s with fault := x.code, responses := s.responses ++ [⟨.raised x, none, 0⟩] } ∧
        exec (.dec k t) s = .next { s with fault := x.code, responses := s.responses ++ [⟨.raised x, none, 0⟩] } ∧
        exec (.enc k t data) s = .next { s with
          fault := x.code, responses := s.responses ++ [⟨.raised x, none, 0⟩] })

/-- R33, R141: with a legal TD, PULLV, DEC and ENC of a Float or Double raise MISALIGNED_FLOAT exactly when `bits_avail
mod 8 ≠ 0`, and then change nothing else; an empty buffer and 8, 16, ..., 64 bits pass. -/
def Obligations.FloatsNeedByteAlignment : Prop :=
  ∀ (k : Kind) (t : TypeOpd) (data : Word) (s : State), (k = .float ∨ k = .double) → LegalTd k t →
    ∀ i ∈ [Instr.pullv k t, .dec k t, .enc k t data],
      (s.buf.avail % 8 ≠ 0 → exec i s = .next { s with
        fault := 5, responses := s.responses ++ [⟨.raised .misalignedFloat, none, 0⟩] }) ∧
      (s.buf.avail % 8 = 0 → ∃ t' r, exec i s = .next t' ∧ t'.responses = s.responses ++ [r] ∧
        r.status ≠ .raised .misalignedFloat)

/-- R53 to R56: formatting a FieldType and parsing the text gives it back, and its TD passes the hardware's check. -/
def Obligations.DescriptorTextRoundTrip : Prop :=
  ∀ ft : FieldType, ft.wellFormed = true →
    parseType (formatType ft) = .ok ft ∧ checkTd ft.kind ft.typeOpd = .ok ft

/-- R53: the grammar is case-insensitive, on every text. -/
def Obligations.DescriptorCaseInsensitive : Prop :=
  ∀ text : List Char, parseType (text.map Char.toUpper) = parseType text

/-- R52: `PULLV type` and `DEC type` assemble to the row whose suffix is the type's kind, with the type's TD. -/
def Obligations.AssemblerPicksRow : Prop :=
  ∀ ft : FieldType, ft.wellFormed = true →
    assembleLine (['P', 'U', 'L', 'L', 'V', ' '] ++ formatType ft) =
      .ok (some (encode (.pullv ft.kind ft.typeOpd))) ∧
    assembleLine (['d', 'e', 'c', ' '] ++ formatType ft ++ [' ', ';', 'x']) =
      .ok (some (encode (.dec ft.kind ft.typeOpd)))

/-! ## The step -/

/-- R15, R47: with no fault latched a step runs the decoded command at the head of the port, and the exact word of
RESET runs whatever is latched. What the step adds is taking the command from the port. -/
def Obligations.StepRunsDecodedCommand : Prop :=
  ∀ (s : State) (c : Command) (rest : List Command) (i : Instr),
    s.commands = c :: rest → decode c = .ok i → (s.fault = 0 ∨ c.cw = 0xF0000000) →
      step s = exec i { s with commands := rest }

/-- R47: the order of decoding, in three cases that exclude one another: FAULTED with no state change, ILLEGAL_COMMAND,
the selected row. -/
def Obligations.StepFollowsR47 : Prop :=
  ∀ (s : State) (c : Command) (rest : List Command), s.commands = c :: rest →
    step s =
      if s.fault ≠ 0 ∧ c.cw ≠ 0xF0000000 then
        .next { s with commands := rest, responses := s.responses ++ [⟨.faulted, none, s.fault.setWidth 64⟩] }
      else
        match decode c with
        | .error _ => .next { s with commands := rest, fault := 7,
                                     responses := s.responses ++ [⟨.raised .illegalCommand, none, 0⟩] }
        | .ok i => exec i { s with commands := rest }

/-- R152, "the BBC is idle between commands and holds its state": with no command waiting a step changes nothing (the
model's choice, log entry 2). -/
def Obligations.IdleHoldsState : Prop :=
  ∀ s : State, s.commands = [] → step s = .next s

/-- R19, R48: every command gets exactly one response, and takes exactly itself from the port; no step stops the machine
or changes its parameter. -/
def Obligations.OneResponsePerCommand : Prop :=
  ∀ (s : State) (c : Command) (rest : List Command), s.commands = c :: rest →
    ∃ t r, step s = .next t ∧ t.commands = rest ∧ t.responses = s.responses ++ [r] ∧ t.cfg = s.cfg

/-! ## Invariants and whole-machine rules -/

/-- R12 and R14 at power-on, whatever the host supplies. -/
def Obligations.PowerOnMeetsInvariant : Prop :=
  State.reset.Inv ∧ ∀ (cfg : Config) (inp : List Byte) (prog : List Command), (State.powerOn cfg inp prog).Inv

/-- R12, R14: every step keeps 0 ≤ bits_avail ≤ 64 and a `fault` of 0 to 7, from every state that has them. -/
def Obligations.StepKeepsInvariant : Prop :=
  ∀ s t : State, s.Inv → step s = .next t → t.Inv

/-- R23, R13: two states that differ only in the dead bits stay so, and give the same responses and bytes, for any number
of steps of any commands. -/
def Obligations.DeadBitsUnobservable : Prop :=
  ∀ (k : Nat) (s t : State), s.SameObservably t →
    ∃ s' t', core.run k s = .next s' ∧ core.run k t = .next t' ∧ s'.SameObservably t'

/-- R136, R147: a command that raises a fault latches its code, answers (code, NONE, info), and changes nothing else,
except that END_OF_INPUT empties IN and answers how many bytes it held. -/
def Obligations.FaultsArePrecise : Prop :=
  ∀ (s t : State) (r : Response) (x : FaultCause),
    step s = .next t → t.responses = s.responses ++ [r] → r.status = .raised x →
      r.vtag = none ∧
      t = { s with commands := s.commands.tail, fault := x.code, responses := s.responses ++ [r],
                   input := if x = .endOfInput then [] else s.input } ∧
      r.data = (if x = .endOfInput then BitVec.ofNat 64 s.input.length else 0) ∧
      (x = .endOfInput → s.input.length ≤ 7)

/-- R146: exactly one status is reported, the first condition of the priority list that holds. -/
def Obligations.PriorityIsR146 : Prop :=
  ∀ (s : State) (c : Command) (rest : List Command), s.commands = c :: rest →
    ∃ t r, step s = .next t ∧ t.responses = s.responses ++ [r] ∧ r.status = firstStatus c s

/-- R135: a command that executes raises only the causes its row of the table names; NO_ITEM is PULLB's alone, and a
response with a status other than OK carries no Value. -/
def Obligations.CommandsRaiseOnlyTheirCauses : Prop :=
  ∀ (i : Instr) (s : State), ∃ t r, exec i s = .next t ∧ t.responses = s.responses ++ [r] ∧
    (r.status ≠ .ok → r.vtag = none) ∧
    match r.status with
    | .ok => True
    | .raised x => x ∈ mayRaise i.mnemonic
    | .faulted => False
    | .noItem => i = .pullb

/-- R144: while a fault is latched, any run of commands none of which is the exact word of RESET is answered FAULTED one
by one with the first fault's code, and changes nothing else. -/
def Obligations.FaultIsSticky : Prop :=
  ∀ (k : Nat) (s : State), s.fault ≠ 0 → k ≤ s.commands.length →
    (∀ c ∈ s.commands, c.cw ≠ 0xF0000000) →
      core.run k s = .next { s with
        commands := s.commands.drop k,
        responses := s.responses ++ List.replicate k ⟨.faulted, none, s.fault.setWidth 64⟩ }

/-- R148: only RESET leaves the faulted condition: it clears `fault` and empties the buffer, and cannot fault; after any
other word the first code stays latched. -/
def Obligations.OnlyResetClearsFault : Prop :=
  ∀ (s : State) (c : Command) (rest : List Command), s.commands = c :: rest → s.fault ≠ 0 →
    ∃ t r, step s = .next t ∧ t.responses = s.responses ++ [r] ∧
      (c.cw = 0xF0000000 → t.fault = 0 ∧ t.buf = ⟨0, 0⟩ ∧ r.status = .ok) ∧
      (c.cw ≠ 0xF0000000 → t.fault = s.fault ∧ t.buf = s.buf ∧ r.status = .faulted)

/-- R25, R36: OUT is only ever appended to, at most 8 bytes a command, and only by DRAIN, ENC and FLUSH. -/
def Obligations.OutputOnlyAppended : Prop :=
  ∀ (i : Instr) (s t : State), s.buf.avail ≤ 64 → exec i s = .next t →
    ∃ bs, t.output = s.output ++ bs ∧ bs.length ≤ 8 ∧ (bs ≠ [] → i.mnemonic ∈ writesOut)

/-- R25, R35: IN is read only by DEC, only on an empty buffer, from its front: 1, 2, 4 or 8 bytes, or all of a stream that
is too short. -/
def Obligations.InputOnlyReadByDecode : Prop :=
  ∀ (i : Instr) (s t : State), exec i s = .next t → t.input ≠ s.input →
    i.mnemonic ∈ readsIn ∧ s.buf.avail = 0 ∧
    ((∃ k ∈ [1, 2, 4, 8], k ≤ s.input.length ∧ t.input = s.input.drop k) ∨
      (t.input = [] ∧ t.fault = 4 ∧ t.buf = s.buf))

/-- R40, R51: bits of DATA a command does not use change nothing: none for PUSHB, PULLV, DRAIN, the queries, DEC, FLUSH
and RESET; only DATA[n−1:0] for a PUSHV or ENC of `n` bits. -/
def Obligations.UnusedDataIgnored : Prop :=
  (∀ (s : State) (cw : BitVec 32) (d d' : Word) (i : Instr), decode ⟨cw, d⟩ = .ok i → i.readsData = false →
    step (s.present ⟨cw, d⟩) = step (s.present ⟨cw, d'⟩)) ∧
  (∀ (s : State) (e : Endian) (n : BitVec 7) (d d' : Word), d.toNat % 2 ^ n.toNat = d'.toNat % 2 ^ n.toNat →
    exec (.pushv e n d) s = exec (.pushv e n d') s) ∧
  ∀ (s : State) (k : Kind) (t : TypeOpd) (d d' : Word),
    d.toNat % 2 ^ requestWidth k t = d'.toNat % 2 ^ requestWidth k t →
    exec (.enc k t d) s = exec (.enc k t d') s

/-! ## Push -/

/-- R61, R62: PUSHB.BE puts the byte below the content and PUSHB.LE above it, whenever 8 bits are free. -/
def Obligations.PushByteResult : Prop :=
  ∀ (imm8 : Byte) (s : State), s.buf.avail + 8 ≤ 64 →
    (∃ b, exec (.pushbBe imm8) s = .next { s with buf := b, responses := s.responses ++ [⟨.ok, none, 0⟩] } ∧
      Pushed .big s.buf b 8 imm8.toNat) ∧
    ∃ b, exec (.pushbLe imm8) s = .next { s with buf := b, responses := s.responses ++ [⟨.ok, none, 0⟩] } ∧
      Pushed .little s.buf b 8 imm8.toNat

/-- R63, R64, R65: PUSHV.BE and PUSHV.LE push DATA mod 2^n, truncated and never refused for its size. -/
def Obligations.PushValueResult : Prop :=
  ∀ (n : BitVec 7) (data : Word) (s : State), 1 ≤ n.toNat → n.toNat + s.buf.avail ≤ 64 →
    (∃ b, exec (.pushvBe n data) s = .next { s with buf := b, responses := s.responses ++ [⟨.ok, none, 0⟩] } ∧
      Pushed .big s.buf b n.toNat data.toNat) ∧
    ∃ b, exec (.pushvLe n data) s = .next { s with buf := b, responses := s.responses ++ [⟨.ok, none, 0⟩] } ∧
      Pushed .little s.buf b n.toNat data.toNat

/-- R66: a push of `n` bits, by PUSHB, PUSHV or an ENC whose checks pass, succeeds exactly when 1 ≤ n ≤ 64 − bits_avail.
-/
def Obligations.CapacityLaw : Prop :=
  ∀ (e : Endian) (s : State),
    (∀ (n : BitVec 7) (data : Word),
      (∃ t, exec (.pushv e n data) s = .next t ∧ t.responses = s.responses ++ [⟨.ok, none, 0⟩]) ↔
        (1 ≤ n.toNat ∧ (n.toNat : Int) ≤ 64 - s.buf.avail)) ∧
    (∀ imm8 : Byte,
      (∃ t, exec (.pushb e imm8) s = .next t ∧ t.responses = s.responses ++ [⟨.ok, none, 0⟩]) ↔
        (8 : Int) ≤ 64 - s.buf.avail) ∧
    ∀ (k : Kind) (t : TypeOpd) (data : Word), LegalTd k t → AlignedFor k s.buf →
      ((∃ u d, exec (.enc k t data) s = .next u ∧ u.responses = s.responses ++ [⟨.ok, none, d⟩]) ↔
        (requestWidth k t : Int) ≤ 64 - s.buf.avail)

/-- R137, R138: a push that is refused: CAPACITY above the free room, every width of 65 to 127 among them, by PUSHV,
PUSHB and ENC, and UNSUPPORTED_WIDTH for a PUSHV of 0 bits; the state is otherwise unchanged. -/
def Obligations.RefusedPushes : Prop :=
  ∀ (e : Endian) (s : State),
    (∀ (n : BitVec 7) (data : Word), n.toNat = 0 →
      exec (.pushv e n data) s = .next { s with
        fault := 2, responses := s.responses ++ [⟨.raised .unsupportedWidth, none, 0⟩] }) ∧
    (∀ (n : BitVec 7) (data : Word), 1 ≤ n.toNat → (n.toNat : Int) > 64 - s.buf.avail →
      exec (.pushv e n data) s = .next { s with
        fault := 1, responses := s.responses ++ [⟨.raised .capacity, none, 0⟩] }) ∧
    (∀ imm8 : Byte, 57 ≤ s.buf.avail →
      exec (.pushb e imm8) s = .next { s with
        fault := 1, responses := s.responses ++ [⟨.raised .capacity, none, 0⟩] }) ∧
    ∀ (k : Kind) (t : TypeOpd) (data : Word), LegalTd k t → AlignedFor k s.buf →
      (requestWidth k t : Int) > 64 - s.buf.avail →
        exec (.enc k t data) s = .next { s with
          fault := 1, responses := s.responses ++ [⟨.raised .capacity, none, 0⟩] }

/-- R65 (e): pushing `a` in `p` bits and then `b` in `q` bits equals one push of `p + q` bits, of a·2^q + b for big and
of b·2^p + a for little. -/
def Obligations.PushesAssociate : Prop :=
  ∀ (e : Endian) (p q r : BitVec 7) (a b : Word) (s s1 s2 s3 : State),
    1 ≤ p.toNat → 1 ≤ q.toNat → r.toNat = p.toNat + q.toNat → s.buf.avail + r.toNat ≤ 64 →
    a.toNat < 2 ^ p.toNat → b.toNat < 2 ^ q.toNat →
    exec (.pushv e p a) s = .next s1 → exec (.pushv e q b) s1 = .next s2 →
    exec (.pushv e r (BitVec.ofNat 64 (match e with
      | .big => a.toNat * 2 ^ q.toNat + b.toNat
      | .little => b.toNat * 2 ^ p.toNat + a.toNat))) s = .next s3 →
      s2.buf.avail = s3.buf.avail ∧ s2.buf.content = s3.buf.content

/-! ## Pull -/

/-- R72 to R76: PULLV.U, PULLV.I, PULLV.F and PULLV.D (the four kinds) take the field's bits from the end its order
names and answer the Value they stand for; with too few bits they raise UNDERFLOW (R142). IN and OUT are untouched. -/
def Obligations.PullValueResult : Prop :=
  ∀ (k : Kind) (t : TypeOpd) (s : State), LegalTd k t → AlignedFor k s.buf →
    (requestWidth k t ≤ s.buf.avail →
      ∃ b v g p, Pulled t.e s.buf b (requestWidth k t) v ∧
        Interpreted s.cfg.intNarrowExt k (requestWidth k t) v g p ∧
        exec (.pullv k t) s = .next { s with buf := b, responses := s.responses ++ [⟨.ok, some g, p⟩] }) ∧
    (s.buf.avail < requestWidth k t →
      exec (.pullv k t) s = .next { s with
        fault := 6, responses := s.responses ++ [⟨.raised .underflow, none, 0⟩] })

/-- R77, R145: PULLB takes the top byte of a byte-aligned buffer, and answers NO_ITEM on any other, which latches and
changes nothing. -/
def Obligations.PullByteResult : Prop :=
  ∀ s : State,
    (0 < s.buf.avail → s.buf.avail % 8 = 0 →
      ∃ b v, Pulled .big s.buf b 8 v ∧
        exec .pullb s = .next { s with buf := b, responses := s.responses ++ [⟨.ok, some .u8, v⟩] }) ∧
    (s.buf.avail = 0 ∨ s.buf.avail % 8 ≠ 0 →
      exec .pullb s = .next { s with responses := s.responses ++ [⟨.noItem, none, 0⟩] })

/-- R78, R79: DRAIN.BE and DRAIN.LE write every byte of a byte-aligned buffer, top first and bottom first, and leave it
empty; on any other buffer they write nothing and change nothing. -/
def Obligations.DrainResult : Prop :=
  ∀ (e : Endian) (s : State),
    (0 < s.buf.avail → s.buf.avail % 8 = 0 →
      ∃ b, b.avail = 0 ∧
        exec (.drain e) s = .next { s with
          buf := b, output := s.output ++ bytesOf e (s.buf.avail / 8) s.buf.content.toNat,
          responses := s.responses ++ [⟨.ok, none, BitVec.ofNat 64 (s.buf.avail / 8)⟩] }) ∧
    (s.buf.avail = 0 ∨ s.buf.avail % 8 ≠ 0 →
      exec (.drain e) s = .next { s with responses := s.responses ++ [⟨.ok, none, 0⟩] })

/-- R80, an inference the spec marks as derived: first in, first out. Fields pushed in one order into an empty buffer and
pulled in the same order and widths come back in that order. -/
def Obligations.FirstInFirstOut : Prop :=
  ∀ (e : Endian) (fs : List (BitVec 7 × Word)) (s : State),
    s.fault = 0 → s.buf.avail = 0 → (∀ f ∈ fs, 1 ≤ f.1.toNat) → (fs.map fun f => f.1.toNat).sum ≤ 64 →
    s.commands = fs.map (fun f => encode (.pushv e f.1 f.2)) ++
      fs.map (fun f => encode (.pullv .uint ⟨f.1, 3, e⟩)) →
      ∃ t, runProgram s = .next t ∧ t.fault = 0 ∧ t.buf.avail = 0 ∧
        t.responses.map Response.data = s.responses.map Response.data ++ fs.map (fun _ => 0) ++
          fs.map (fun f => BitVec.ofNat 64 (f.2.toNat % 2 ^ f.1.toNat))

/-! ## Queries and RESET -/

/-- R85 to R89: QEMPTY, QALIGN, MASK, RDBUF and RDAVL answer and change nothing; RDBUF shows no bit at or above
bits_avail. -/
def Obligations.QueryResult : Prop :=
  ∀ s : State,
    exec .qempty s = .next { s with
      responses := s.responses ++ [⟨.ok, none, if s.buf.avail = 0 then 1 else 0⟩] } ∧
    exec .qalign s = .next { s with
      responses := s.responses ++ [⟨.ok, none, if 0 < s.buf.avail ∧ s.buf.avail % 8 = 0 then 1 else 0⟩] } ∧
    (∀ n : BitVec 7, n.toNat ≤ 64 → ∃ d : Word, d.toNat = 2 ^ n.toNat - 1 ∧
      exec (.mask n) s = .next { s with responses := s.responses ++ [⟨.ok, none, d⟩] }) ∧
    (∃ d : Word, d.toNat = s.buf.bits.toNat % 2 ^ s.buf.avail ∧
      exec .rdbuf s = .next { s with responses := s.responses ++ [⟨.ok, none, d⟩] }) ∧
    (s.buf.avail ≤ 64 → ∃ d : Word, d.toNat = s.buf.avail ∧
      exec .rdavl s = .next { s with responses := s.responses ++ [⟨.ok, none, d⟩] })

/-- R21, R130, R155, R156: the reset values (`bits` = 0 and `fault` = 0 are the spec's decision D20), at power-on and
after RESET; EMPTY = 1 and ALIGNED = 0; RESET executes whatever is latched and touches neither stream. -/
def Obligations.ResetValues : Prop :=
  (∀ (cfg : Config) (inp : List Byte) (prog : List Command),
    (State.powerOn cfg inp prog).buf = ⟨0, 0⟩ ∧ (State.powerOn cfg inp prog).fault = 0 ∧
    (State.powerOn cfg inp prog).input = inp ∧ (State.powerOn cfg inp prog).output = []) ∧
  (∀ (s : State) (d : Word) (rest : List Command), s.commands = ⟨0xF0000000, d⟩ :: rest →
    step s = .next { s with buf := ⟨0, 0⟩, fault := 0, commands := rest,
                            responses := s.responses ++ [⟨.ok, none, 0⟩] }) ∧
  BitBuffer.empty ⟨0, 0⟩ = true ∧ BitBuffer.aligned ⟨0, 0⟩ = false

/-- R130: RESET from every state: its whole effect and its frame. -/
def Obligations.ResetResult : Prop :=
  ∀ s : State, exec .reset s =
    .next { s with buf := ⟨0, 0⟩, fault := 0, responses := s.responses ++ [⟨.ok, none, 0⟩] }

/-! ## Decode -/

/-- R110 to R115, R35: DEC.U, DEC.I, DEC.F and DEC.D on an empty buffer read one container from the front of IN, as one
number in the field's order, and answer the field's Value from it; the rest stays staged. -/
def Obligations.DecodeRefillResult : Prop :=
  ∀ (k : Kind) (t : TypeOpd) (s : State),
    LegalTd k t → s.buf.avail = 0 → 2 ^ t.cc.toNat ≤ s.input.length →
      ∃ b0 b v g p,
        b0.avail = 8 * 2 ^ t.cc.toNat ∧ b0.content.toNat = numberOf t.e (s.input.take (2 ^ t.cc.toNat)) ∧
        Pulled t.e b0 b (requestWidth k t) v ∧ Interpreted s.cfg.intNarrowExt k (requestWidth k t) v g p ∧
        exec (.dec k t) s = .next { s with buf := b, input := s.input.drop (2 ^ t.cc.toNat),
                                           responses := s.responses ++ [⟨.ok, some g, p⟩] }

/-- R110, R161: DEC on a buffer that is not empty reads nothing from IN, however few bits are staged: it answers from
them, or UNDERFLOW. -/
def Obligations.DecodeStagedResult : Prop :=
  ∀ (k : Kind) (t : TypeOpd) (s : State), LegalTd k t → AlignedFor k s.buf → 0 < s.buf.avail →
    (requestWidth k t ≤ s.buf.avail →
      ∃ b v g p, Pulled t.e s.buf b (requestWidth k t) v ∧
        Interpreted s.cfg.intNarrowExt k (requestWidth k t) v g p ∧
        exec (.dec k t) s = .next { s with buf := b, responses := s.responses ++ [⟨.ok, some g, p⟩] }) ∧
    (s.buf.avail < requestWidth k t →
      exec (.dec k t) s = .next { s with
        fault := 6, responses := s.responses ++ [⟨.raised .underflow, none, 0⟩] })

/-- R111, R140: DEC on an empty buffer with fewer bytes in IN than its container: no byte reaches the buffer, IN ends
empty, and the response counts the bytes it held. On a buffer that is not empty DEC never answers so, nor reads IN. -/
def Obligations.EndOfInputResult : Prop :=
  ∀ (k : Kind) (t : TypeOpd) (s : State),
    (LegalTd k t → s.buf.avail = 0 → s.input.length < 2 ^ t.cc.toNat →
      exec (.dec k t) s = .next { s with
        input := [], fault := 4,
        responses := s.responses ++ [⟨.raised .endOfInput, none, BitVec.ofNat 64 s.input.length⟩] }) ∧
    (s.buf.avail ≠ 0 → ∃ u r, exec (.dec k t) s = .next u ∧ u.responses = s.responses ++ [r] ∧
      r.status ≠ .raised .endOfInput ∧ u.input = s.input)

/-! ## Encode and flush -/

/-- R116 to R120: ENC.U, ENC.I, ENC.F and ENC.D push the low bits of DATA and write every byte when the count lands on a
byte boundary, in the field's order; otherwise everything stays staged. -/
def Obligations.EncodeResult : Prop :=
  ∀ (k : Kind) (t : TypeOpd) (data : Word) (s : State),
    LegalTd k t → AlignedFor k s.buf → s.buf.avail + requestWidth k t ≤ 64 →
      ∃ b0 b, Pushed t.e s.buf b0 (requestWidth k t) data.toNat ∧
        (if b0.avail % 8 = 0 then b.avail = 0 else b = b0) ∧
        exec (.enc k t data) s = .next { s with
          buf := b,
          output := s.output ++ (if b0.avail % 8 = 0 then bytesOf t.e (b0.avail / 8) b0.content.toNat else []),
          responses := s.responses ++
            [⟨.ok, none, if b0.avail % 8 = 0 then BitVec.ofNat 64 (b0.avail / 8) else 0⟩] }

/-- R121, R122: FLUSH.BE and FLUSH.LE write the staged bits in ⌈bits_avail/8⌉ bytes, the padding zeros at the bottom of
the last byte for big and at its top for little, and leave the buffer empty. -/
def Obligations.FlushResult : Prop :=
  ∀ (e : Endian) (s : State), s.buf.avail ≤ 64 →
    ∃ b, b.avail = 0 ∧
      exec (.flush e) s = .next { s with
        buf := b,
        output := s.output ++ bytesOf e ((s.buf.avail + 7) / 8) (match e with
          | .big => s.buf.content.toNat * 2 ^ (8 * ((s.buf.avail + 7) / 8) - s.buf.avail)
          | .little => s.buf.content.toNat),
        responses := s.responses ++ [⟨.ok, none, BitVec.ofNat 64 ((s.buf.avail + 7) / 8)⟩] }

/-- R52: when no fault is raised, ENC has the same effect on the buffer and OUT as PUSHV of the field's width followed by
DRAIN in the field's order, and the same count. -/
def Obligations.EncodeIsPushThenDrain : Prop :=
  ∀ (k : Kind) (t : TypeOpd) (n : BitVec 7) (data : Word) (s s1 s2 s3 : State),
    LegalTd k t → AlignedFor k s.buf → s.buf.avail + requestWidth k t ≤ 64 → n.toNat = requestWidth k t →
    exec (.enc k t data) s = .next s1 → exec (.pushv t.e n data) s = .next s2 →
    exec (.drain t.e) s2 = .next s3 →
      s1.buf = s3.buf ∧ s1.output = s3.output ∧ s1.input = s3.input ∧ s1.fault = s3.fault ∧
      s1.responses.getLast? = s3.responses.getLast?

/-- R123: ENC of a field that fills its container, from an empty buffer, is a byte-order-aware write of DATA[n−1:0]. -/
def Obligations.FastPathIsByteOrderWrite : Prop :=
  ∀ (k : Kind) (t : TypeOpd) (data : Word) (s : State),
    LegalTd k t → requestWidth k t = 8 * 2 ^ t.cc.toNat → s.buf.avail = 0 →
      ∃ b, b.avail = 0 ∧
        exec (.enc k t data) s = .next { s with
          buf := b, output := s.output ++ bytesOf t.e (2 ^ t.cc.toNat) (data.toNat % 2 ^ requestWidth k t),
          responses := s.responses ++ [⟨.ok, none, BitVec.ofNat 64 (2 ^ t.cc.toNat)⟩] }

/-! ## Records -/

/-- R124, an inference the spec marks as derived: a record, of any mixture of orders, encoded without a fault by one ENC
per field and a FLUSH (the program of log entry 17), is exactly ⌈L/8⌉ bytes, L its bit length, and leaves nothing
staged. -/
def Obligations.RecordLength : Prop :=
  ∀ (fs : List RecordField) (e : Endian) (s t : State),
    (∀ f ∈ fs, f.typ.wellFormed = true) → s.fault = 0 → s.buf.avail = 0 → s.commands = encodeProgram fs e →
    runProgram s = .next t → t.fault = 0 →
      t.buf.avail = 0 ∧
      ∃ bs, t.output = s.output ++ bs ∧ bs.length = (totalBits (fs.map RecordField.typ) + 7) / 8

/-- R124, an inference the spec marks as derived: in a record of one order, encoded by the program of log entry 17, the
bytes are the fields packed contiguously in declaration order, the unused bits of the last byte zero. -/
def Obligations.RecordLayout : Prop :=
  ∀ (fs : List RecordField) (e : Endian) (s t : State),
    (∀ f ∈ fs, f.typ.wellFormed = true ∧ f.typ.endian = e) → s.fault = 0 → s.buf.avail = 0 →
    s.commands = encodeProgram fs e → runProgram s = .next t → t.fault = 0 →
      ∃ bs, t.output = s.output ++ bs ∧
        numberOf e bs = match e with
          | .big => packed .big fs * 2 ^ (8 * bs.length - totalBits (fs.map RecordField.typ))
          | .little => packed .little fs

/-- R125, an inference the spec marks as derived: a template that tiles its containers round-trips, mixed orders among
its groups included: one ENC per field (no FLUSH, for nothing is left staged) encodes the record without a fault, and
one DEC per entry decodes those bytes to the Values encoded, in order. The programs are those of log entry 17. -/
def Obligations.TiledTemplateRoundTrips : Prop :=
  ∀ (gs : List (Endian × Container × List RecordField)) (cfg : Config),
    (∀ g ∈ gs, tilesContainer g.1 g.2.1 (g.2.2.map RecordField.typ) = true) →
    let fs := gs.flatMap fun g => g.2.2
    ∃ t u, runProgram (State.powerOn cfg [] (fs.map RecordField.command)) = .next t ∧ t.fault = 0 ∧ t.buf.avail = 0 ∧
      runProgram (State.powerOn cfg t.output (decodeProgram (fs.map RecordField.typ))) = .next u ∧ u.fault = 0 ∧
      u.input = [] ∧
      List.Forall₂ (fun f r => r.status = .ok ∧ ∃ g, r.vtag = some g ∧
          Interpreted cfg.intNarrowExt f.typ.kind f.typ.numBits
            (BitVec.ofNat 64 (f.data.toNat % 2 ^ f.typ.numBits)) g r.data) fs u.responses

/-- R101, R105, R125: under INT_NARROW_EXT = sign every integer of an Int field's range survives: the host's `raw64`
word, cut to the field's width and interpreted, stands for the integer it was. -/
def Obligations.SignedValuesSurvive : Prop :=
  ∀ (n : Nat) (e : Endian) (c : Container) (z : Int), 1 ≤ n → n ≤ 64 →
    -(2 ^ (n - 1)) ≤ z → z < 2 ^ (n - 1) →
      ∃ p, interpret ⟨.sign⟩ (.int n e c) (BitVec.ofInt 64 z &&& mask n) = (signedTag n, p) ∧
        Value.number ⟨signedTag n, p⟩ = .int z ∧
        (Value.raw64 ⟨signedTag n, p⟩).toNat % 2 ^ n = (BitVec.ofInt 64 z).toNat % 2 ^ n
end

