-- ==== Sys2Proof/Laws/State.lean ====
section
/-! SUPPORT. What each named update of State does to each field: one lemma per field per update. -/

namespace Sys2Proof.Laws

open Sys2Proof.Machine

variable (s : State)

/-! ## setBuf -/

@[simp] theorem setBuf_cfg (b : BitBuffer) : (s.setBuf b).cfg = s.cfg := rfl
@[simp] theorem setBuf_buf (b : BitBuffer) : (s.setBuf b).buf = b := rfl
@[simp] theorem setBuf_fault (b : BitBuffer) : (s.setBuf b).fault = s.fault := rfl
@[simp] theorem setBuf_input (b : BitBuffer) : (s.setBuf b).input = s.input := rfl
@[simp] theorem setBuf_output (b : BitBuffer) : (s.setBuf b).output = s.output := rfl
@[simp] theorem setBuf_commands (b : BitBuffer) : (s.setBuf b).commands = s.commands := rfl
@[simp] theorem setBuf_responses (b : BitBuffer) : (s.setBuf b).responses = s.responses := rfl

/-! ## setFault -/

@[simp] theorem setFault_cfg (f : BitVec 4) : (s.setFault f).cfg = s.cfg := rfl
@[simp] theorem setFault_buf (f : BitVec 4) : (s.setFault f).buf = s.buf := rfl
@[simp] theorem setFault_fault (f : BitVec 4) : (s.setFault f).fault = f := rfl
@[simp] theorem setFault_input (f : BitVec 4) : (s.setFault f).input = s.input := rfl
@[simp] theorem setFault_output (f : BitVec 4) : (s.setFault f).output = s.output := rfl
@[simp] theorem setFault_commands (f : BitVec 4) : (s.setFault f).commands = s.commands := rfl
@[simp] theorem setFault_responses (f : BitVec 4) : (s.setFault f).responses = s.responses := rfl

/-! ## setInput -/

@[simp] theorem setInput_cfg (bs : List Byte) : (s.setInput bs).cfg = s.cfg := rfl
@[simp] theorem setInput_buf (bs : List Byte) : (s.setInput bs).buf = s.buf := rfl
@[simp] theorem setInput_fault (bs : List Byte) : (s.setInput bs).fault = s.fault := rfl
@[simp] theorem setInput_input (bs : List Byte) : (s.setInput bs).input = bs := rfl
@[simp] theorem setInput_output (bs : List Byte) : (s.setInput bs).output = s.output := rfl
@[simp] theorem setInput_commands (bs : List Byte) : (s.setInput bs).commands = s.commands := rfl
@[simp] theorem setInput_responses (bs : List Byte) : (s.setInput bs).responses = s.responses := rfl

/-! ## setCommands -/

@[simp] theorem setCommands_cfg (cs : List Command) : (s.setCommands cs).cfg = s.cfg := rfl
@[simp] theorem setCommands_buf (cs : List Command) : (s.setCommands cs).buf = s.buf := rfl
@[simp] theorem setCommands_fault (cs : List Command) : (s.setCommands cs).fault = s.fault := rfl
@[simp] theorem setCommands_input (cs : List Command) : (s.setCommands cs).input = s.input := rfl
@[simp] theorem setCommands_output (cs : List Command) : (s.setCommands cs).output = s.output := rfl
@[simp] theorem setCommands_commands (cs : List Command) : (s.setCommands cs).commands = cs := rfl
@[simp] theorem setCommands_responses (cs : List Command) : (s.setCommands cs).responses = s.responses := rfl

/-! ## emit -/

@[simp] theorem emit_cfg (bs : List Byte) : (s.emit bs).cfg = s.cfg := rfl
@[simp] theorem emit_buf (bs : List Byte) : (s.emit bs).buf = s.buf := rfl
@[simp] theorem emit_fault (bs : List Byte) : (s.emit bs).fault = s.fault := rfl
@[simp] theorem emit_input (bs : List Byte) : (s.emit bs).input = s.input := rfl
@[simp] theorem emit_output (bs : List Byte) : (s.emit bs).output = s.output ++ bs := rfl
@[simp] theorem emit_commands (bs : List Byte) : (s.emit bs).commands = s.commands := rfl
@[simp] theorem emit_responses (bs : List Byte) : (s.emit bs).responses = s.responses := rfl

/-! ## respond -/

@[simp] theorem respond_cfg (x : Status) (t : Option Tag) (d : Word) : (s.respond x t d).cfg = s.cfg := rfl
@[simp] theorem respond_buf (x : Status) (t : Option Tag) (d : Word) : (s.respond x t d).buf = s.buf := rfl
@[simp] theorem respond_fault (x : Status) (t : Option Tag) (d : Word) : (s.respond x t d).fault = s.fault := rfl
@[simp] theorem respond_input (x : Status) (t : Option Tag) (d : Word) : (s.respond x t d).input = s.input := rfl
@[simp] theorem respond_output (x : Status) (t : Option Tag) (d : Word) : (s.respond x t d).output = s.output := rfl
@[simp] theorem respond_commands (x : Status) (t : Option Tag) (d : Word) : (s.respond x t d).commands = s.commands := rfl
@[simp] theorem respond_responses (x : Status) (t : Option Tag) (d : Word) : (s.respond x t d).responses = s.responses ++ [⟨x, t, d⟩] := rfl

/-! ## raise -/

@[simp] theorem raise_cfg (x : FaultCause) (d : Word) : (s.raise x d).cfg = s.cfg := rfl
@[simp] theorem raise_buf (x : FaultCause) (d : Word) : (s.raise x d).buf = s.buf := rfl
@[simp] theorem raise_fault (x : FaultCause) (d : Word) : (s.raise x d).fault = x.code := rfl
@[simp] theorem raise_input (x : FaultCause) (d : Word) : (s.raise x d).input = s.input := rfl
@[simp] theorem raise_output (x : FaultCause) (d : Word) : (s.raise x d).output = s.output := rfl
@[simp] theorem raise_commands (x : FaultCause) (d : Word) : (s.raise x d).commands = s.commands := rfl
@[simp] theorem raise_responses (x : FaultCause) (d : Word) : (s.raise x d).responses = s.responses ++ [⟨.raised x, none, d⟩] := rfl

/-! ## clear -/

@[simp] theorem clear_cfg : (s.clear).cfg = s.cfg := rfl
@[simp] theorem clear_buf : (s.clear).buf = ⟨0, 0⟩ := rfl
@[simp] theorem clear_fault : (s.clear).fault = 0 := rfl
@[simp] theorem clear_input : (s.clear).input = s.input := rfl
@[simp] theorem clear_output : (s.clear).output = s.output := rfl
@[simp] theorem clear_commands : (s.clear).commands = s.commands := rfl
@[simp] theorem clear_responses : (s.clear).responses = s.responses := rfl

/-! ## refill -/

@[simp] theorem refill_cfg (k : Nat) (e : Endian) : (s.refill k e).cfg = s.cfg := rfl
@[simp] theorem refill_buf (k : Nat) (e : Endian) : (s.refill k e).buf = s.buf.pushBytes e (s.input.take k) := rfl
@[simp] theorem refill_fault (k : Nat) (e : Endian) : (s.refill k e).fault = s.fault := rfl
@[simp] theorem refill_input (k : Nat) (e : Endian) : (s.refill k e).input = s.input.drop k := rfl
@[simp] theorem refill_output (k : Nat) (e : Endian) : (s.refill k e).output = s.output := rfl
@[simp] theorem refill_commands (k : Nat) (e : Endian) : (s.refill k e).commands = s.commands := rfl
@[simp] theorem refill_responses (k : Nat) (e : Endian) : (s.refill k e).responses = s.responses := rfl

/-! ## present -/

@[simp] theorem present_cfg (c : Command) : (s.present c).cfg = s.cfg := rfl
@[simp] theorem present_buf (c : Command) : (s.present c).buf = s.buf := rfl
@[simp] theorem present_fault (c : Command) : (s.present c).fault = s.fault := rfl
@[simp] theorem present_input (c : Command) : (s.present c).input = s.input := rfl
@[simp] theorem present_output (c : Command) : (s.present c).output = s.output := rfl
@[simp] theorem present_commands (c : Command) : (s.present c).commands = c :: s.commands := rfl
@[simp] theorem present_responses (c : Command) : (s.present c).responses = s.responses := rfl

end Sys2Proof.Laws
end

