-- ==== Sys2Proof/Laws/Buffer.lean ====
section
/-! SUPPORT. The arithmetic of the Bit Buffer: what a push, an extraction, a drain and a refill do to the count and to
the content read as a number. Later proofs cite these and unfold none of the operations. -/

namespace Sys2Proof.Laws

open Sys2Proof.Machine

/-! ## mask, shl64, shr64 -/

theorem mask_toNat {n : Nat} (h : n ≤ 64) : (mask n).toNat = 2 ^ n - 1 := by
  have h1 : 2 ^ n ≤ 2 ^ 64 := Nat.pow_le_pow_right (by decide) h
  have h2 : 0 < 2 ^ n := Nat.two_pow_pos n
  rw [mask, BitVec.toNat_ofNat, Nat.mod_eq_of_lt (by omega)]

theorem and_mask_toNat (x : Word) (n : Nat) : (x &&& mask n).toNat = x.toNat % 2 ^ n := by
  rcases Nat.le_total n 64 with h | h
  · rw [BitVec.toNat_and, mask_toNat h, Nat.and_two_pow_sub_one_eq_mod]
  · have h1 : 2 ^ 64 ≤ 2 ^ n := Nat.pow_le_pow_right (by decide) h
    have h3 : (2 ^ n - 1) % 2 ^ 64 = 2 ^ 64 - 1 := by
      obtain ⟨k, rfl⟩ := Nat.exists_eq_add_of_le h
      have : 2 ^ (64 + k) - 1 = 2 ^ 64 - 1 + 2 ^ 64 * (2 ^ k - 1) := by
        rw [Nat.pow_add, Nat.mul_sub]
        have := Nat.two_pow_pos k
        have : 2 ^ 64 ≤ 2 ^ 64 * 2 ^ k := Nat.le_mul_of_pos_right _ ‹_›
        omega
      rw [this, Nat.add_mul_mod_self_left, Nat.mod_eq_of_lt (by omega)]
    rw [BitVec.toNat_and, mask, BitVec.toNat_ofNat, h3, Nat.and_two_pow_sub_one_eq_mod,
      Nat.mod_eq_of_lt x.isLt, Nat.mod_eq_of_lt (Nat.lt_of_lt_of_le x.isLt h1)]

theorem shl64_toNat (x : Word) {n : Nat} (h : n ≤ 64) : (shl64 x n).toNat = 2 ^ n * (x.toNat % 2 ^ (64 - n)) := by
  rw [shl64, BitVec.toNat_shiftLeft, Nat.shiftLeft_eq, Nat.mul_comm,
    show (2 : Nat) ^ 64 = 2 ^ n * 2 ^ (64 - n) by rw [← Nat.pow_add]; congr 1; omega, Nat.mul_mod_mul_left]

theorem shr64_toNat (x : Word) (n : Nat) : (shr64 x n).toNat = x.toNat / 2 ^ n := by
  rw [shr64, BitVec.toNat_ushiftRight, Nat.shiftRight_eq_div_pow]

/-- Bits placed below a shifted number: the bitwise OR is the sum. -/
theorem or_eq_add (a : Nat) {b n : Nat} (h : b < 2 ^ n) : 2 ^ n * a ||| b = 2 ^ n * a + b :=
  (Nat.two_pow_add_eq_or_of_lt h a).symm

/-! ## The content -/

theorem content_toNat (b : BitBuffer) : b.content.toNat = b.bits.toNat % 2 ^ b.avail := and_mask_toNat _ _

theorem content_lt (b : BitBuffer) : b.content.toNat < 2 ^ b.avail := by
  rw [content_toNat]; exact Nat.mod_lt _ (Nat.two_pow_pos _)

theorem content_empty (b : BitBuffer) (h : b.avail = 0) : b.content.toNat = 0 := by
  rw [content_toNat, h]; omega

theorem mod_of_mod_add (x a n : Nat) : x % 2 ^ (a + n) % 2 ^ n = x % 2 ^ n :=
  Nat.mod_mod_of_dvd _ (Nat.pow_dvd_pow 2 (Nat.le_add_left n a))

/-! ## Push (R60) -/

@[simp] theorem push_avail (b : BitBuffer) (e : Endian) (v : Word) (n : Nat) :
    (b.push e v n).avail = b.avail + n := by cases e <;> rfl

/-- BE content' = content · 2^n + m. -/
theorem pushBe_content (b : BitBuffer) (v : Word) {n : Nat} (h : b.avail + n ≤ 64) :
    (b.push .big v n).content.toNat = b.content.toNat * 2 ^ n + v.toNat % 2 ^ n := by
  have hm : v.toNat % 2 ^ n < 2 ^ n := Nat.mod_lt _ (Nat.two_pow_pos n)
  have hd : 2 ^ b.avail ∣ 2 ^ (64 - n) := Nat.pow_dvd_pow 2 (by omega)
  simp only [content_toNat, BitBuffer.push, BitBuffer.pushBe, BitVec.toNat_or, and_mask_toNat,
    shl64_toNat _ (show n ≤ 64 by omega), or_eq_add _ hm]
  rw [show b.avail + n = n + b.avail by omega, Nat.pow_add, Nat.mod_mul, Nat.mul_add_mod,
    Nat.mod_eq_of_lt hm, Nat.mul_add_div (Nat.two_pow_pos n), Nat.div_eq_of_lt hm, Nat.add_zero,
    Nat.mod_mod_of_dvd _ hd, Nat.mul_comm, Nat.add_comm, Nat.mul_comm]

/-- LE content' = content + m · 2^bits_avail. -/
theorem pushLe_content (b : BitBuffer) (v : Word) {n : Nat} (h : b.avail + n ≤ 64) :
    (b.push .little v n).content.toNat = b.content.toNat + (v.toNat % 2 ^ n) * 2 ^ b.avail := by
  have hc := content_lt b
  have hm : v.toNat % 2 ^ n < 2 ^ n := Nat.mod_lt _ (Nat.two_pow_pos n)
  have hm' : v.toNat % 2 ^ n % 2 ^ (64 - b.avail) = v.toNat % 2 ^ n :=
    Nat.mod_eq_of_lt (Nat.lt_of_lt_of_le hm (Nat.pow_le_pow_right (by decide) (by omega)))
  rw [content_toNat] at hc
  rw [content_toNat, content_toNat]
  simp only [BitBuffer.push, BitBuffer.pushLe, BitVec.toNat_or, and_mask_toNat,
    shl64_toNat _ (show b.avail ≤ 64 by omega), hm']
  rw [Nat.lor_comm, or_eq_add _ hc, Nat.pow_add, Nat.mod_mul, Nat.mul_add_mod, Nat.mod_eq_of_lt hc,
    Nat.mul_add_div (Nat.two_pow_pos _), Nat.div_eq_of_lt hc, Nat.add_zero, Nat.mod_eq_of_lt hm, Nat.mul_comm]

/-! ## Extraction (R70, R71) -/

@[simp] theorem extract_avail (b : BitBuffer) (e : Endian) (n : Nat) :
    (b.extract e n).2.avail = b.avail - n := by cases e <;> rfl

/-- A BE pull returns the top `n` bits of the content and leaves the rest; `bits` is not written. -/
theorem extractBe_spec (b : BitBuffer) {n : Nat} (h : n ≤ b.avail) :
    (b.extract .big n).1.toNat = b.content.toNat / 2 ^ (b.avail - n) ∧
    (b.extract .big n).2.content.toNat = b.content.toNat % 2 ^ (b.avail - n) ∧
    (b.extract .big n).2.bits = b.bits := by
  have hp : (2 : Nat) ^ b.avail = 2 ^ (b.avail - n) * 2 ^ n := by rw [← Nat.pow_add]; congr 1; omega
  refine ⟨?_, ?_, rfl⟩
  · rw [content_toNat, hp]
    simp only [BitBuffer.extract, BitBuffer.extractBe, and_mask_toNat, shr64_toNat]
    rw [Nat.mod_mul_right_div_self]
  · rw [content_toNat, content_toNat]
    simp only [BitBuffer.extract, BitBuffer.extractBe]
    rw [Nat.mod_mod_of_dvd _ (Nat.pow_dvd_pow 2 (by omega))]

/-- An LE pull returns the bottom `n` bits of the content and moves the rest down. -/
theorem extractLe_spec (b : BitBuffer) {n : Nat} (h : n ≤ b.avail) :
    (b.extract .little n).1.toNat = b.content.toNat % 2 ^ n ∧
    (b.extract .little n).2.content.toNat = b.content.toNat / 2 ^ n := by
  have hp : (2 : Nat) ^ b.avail = 2 ^ n * 2 ^ (b.avail - n) := by rw [← Nat.pow_add]; congr 1; omega
  constructor
  · rw [content_toNat]
    simp only [BitBuffer.extract, BitBuffer.extractLe, and_mask_toNat]
    rw [Nat.mod_mod_of_dvd _ (Nat.pow_dvd_pow 2 h)]
  · rw [content_toNat, content_toNat, hp]
    simp only [BitBuffer.extract, BitBuffer.extractLe, shr64_toNat]
    rw [Nat.mod_mul_right_div_self]

end Sys2Proof.Laws
end

