-- ==== Sys2Proof/Laws/Encoding.lean ====
section
/-! SUPPORT. The fields of the words the encoder builds, and a word from its fields: what proofs about decoding cite. -/

namespace Sys2Proof.Laws

/-! ## Codes -/

@[simp] theorem ofBit_bit (e : Endian) : Endian.ofBit e.bit = e := by cases e <;> decide

@[simp] theorem kind_ofCode_code (k : Kind) : Kind.ofCode k.code = k := by cases k <;> decide

@[simp] theorem container_ofCode_code (c : Container) : Container.ofCode c.code = c := by cases c <;> decide

@[simp] theorem bit_ofBit (b : BitVec 1) : (Endian.ofBit b).bit = b := by revert b; decide

@[simp] theorem kind_code_ofCode (k : BitVec 2) : (Kind.ofCode k).code = k := by revert k; decide

@[simp] theorem container_code_ofCode (c : BitVec 2) : (Container.ofCode c).code = c := by revert c; decide

/-! ## Fields of a built word -/

@[simp] theorem opcode_wordOf (op : BitVec 4) (o : BitVec 12) : opcode (wordOf op o) = op := by
  unfold opcode wordOf
  rw [BitVec.extractLsb'_append_eq_of_le (by omega)]; simp

@[simp] theorem reserved_wordOf (op : BitVec 4) (o : BitVec 12) : reserved (wordOf op o) = 0 := by
  unfold reserved wordOf
  rw [BitVec.extractLsb'_append_eq_of_add_le (by omega), BitVec.extractLsb'_append_eq_of_le (by omega)]; simp

@[simp] theorem operand_wordOf (op : BitVec 4) (o : BitVec 12) : operand (wordOf op o) = o := by
  unfold operand wordOf
  rw [BitVec.extractLsb'_append_eq_of_add_le (by omega), BitVec.extractLsb'_append_eq_of_add_le (by omega)]; simp

section
variable (a : BitVec 7) (b : BitVec 2) (c : BitVec 1) (d : BitVec 2)

theorem opdWidth_append : opdWidth (a ++ (b ++ (c ++ d))) = a := by
  unfold opdWidth
  rw [BitVec.extractLsb'_append_eq_of_le (by omega)]; simp

theorem opdContainer_append : opdContainer (a ++ (b ++ (c ++ d))) = b := by
  unfold opdContainer
  rw [BitVec.extractLsb'_append_eq_of_add_le (by omega), BitVec.extractLsb'_append_eq_of_le (by omega)]; simp

theorem opdEndian_append : opdEndian (a ++ (b ++ (c ++ d))) = c := by
  unfold opdEndian
  rw [BitVec.extractLsb'_append_eq_of_add_le (by omega), BitVec.extractLsb'_append_eq_of_add_le (by omega),
    BitVec.extractLsb'_append_eq_of_le (by omega)]; simp

theorem opdKind_append : opdKind (a ++ (b ++ (c ++ d))) = d := by
  unfold opdKind
  rw [BitVec.extractLsb'_append_eq_of_add_le (by omega), BitVec.extractLsb'_append_eq_of_add_le (by omega),
    BitVec.extractLsb'_append_eq_of_add_le (by omega)]; simp

end

@[simp] theorem opdWidth_opdT (k : Kind) (t : TypeOpd) : opdWidth (opdT k t) = t.nb := opdWidth_append _ _ _ _
@[simp] theorem opdContainer_opdT (k : Kind) (t : TypeOpd) : opdContainer (opdT k t) = t.cc :=
  opdContainer_append _ _ _ _
@[simp] theorem opdEndian_opdT (k : Kind) (t : TypeOpd) : opdEndian (opdT k t) = t.e.bit := opdEndian_append _ _ _ _
@[simp] theorem opdKind_opdT (k : Kind) (t : TypeOpd) : opdKind (opdT k t) = k.code := opdKind_append _ _ _ _
@[simp] theorem opdType_opdT (k : Kind) (t : TypeOpd) : opdType (opdT k t) = t := by simp [opdType]

@[simp] theorem opdWidth_opdW (n : BitVec 7) (e : Endian) : opdWidth (opdW n e) = n := opdWidth_append _ _ _ _
@[simp] theorem opdContainer_opdW (n : BitVec 7) (e : Endian) : opdContainer (opdW n e) = 0 :=
  opdContainer_append _ _ _ _
@[simp] theorem opdEndian_opdW (n : BitVec 7) (e : Endian) : opdEndian (opdW n e) = e.bit :=
  opdEndian_append _ _ _ _
@[simp] theorem opdKind_opdW (n : BitVec 7) (e : Endian) : opdKind (opdW n e) = 0 := opdKind_append _ _ _ _

@[simp] theorem opdWidth_opdE (e : Endian) : opdWidth (opdE e) = 0 := opdWidth_append _ _ _ _
@[simp] theorem opdContainer_opdE (e : Endian) : opdContainer (opdE e) = 0 := opdContainer_append _ _ _ _
@[simp] theorem opdEndian_opdE (e : Endian) : opdEndian (opdE e) = e.bit := opdEndian_append _ _ _ _
@[simp] theorem opdKind_opdE (e : Endian) : opdKind (opdE e) = 0 := opdKind_append _ _ _ _

@[simp] theorem opdHigh_opdB (b : Byte) : opdHigh (opdB b) = 0 := by
  unfold opdHigh opdB
  rw [BitVec.extractLsb'_append_eq_of_le (by omega)]; simp

@[simp] theorem opdImm8_opdB (b : Byte) : opdImm8 (opdB b) = b := by
  unfold opdImm8 opdB
  rw [BitVec.extractLsb'_append_eq_of_add_le (by omega)]; simp

/-! ## A word from its fields -/

theorem append_toNat {w v : Nat} (x : BitVec w) (y : BitVec v) : (x ++ y).toNat = x.toNat * 2 ^ v + y.toNat := by
  rw [BitVec.toNat_append, ← Nat.shiftLeft_add_eq_or_of_lt y.isLt, Nat.shiftLeft_eq]

theorem field_toNat {w : Nat} (x : BitVec w) (lo len : Nat) :
    (x.extractLsb' lo len).toNat = x.toNat / 2 ^ lo % 2 ^ len := by
  rw [BitVec.extractLsb'_toNat, Nat.shiftRight_eq_div_pow]

/-- A word whose reserved bits are zero is its opcode over its operand field. -/
theorem wordOf_fields (cw : BitVec 32) (h : reserved cw = 0#16) : wordOf (opcode cw) (operand cw) = cw := by
  have h' := congrArg BitVec.toNat h
  apply BitVec.eq_of_toNat_eq
  have hlt := cw.isLt
  simp only [reserved, opcode, operand, wordOf, append_toNat, field_toNat, BitVec.toNat_ofNat] at h' ⊢
  omega

/-- An operand field from its four fields. -/
theorem opd_fields (o : BitVec 12) :
    opdWidth o ++ (opdContainer o ++ (opdEndian o ++ opdKind o)) = o := by
  apply BitVec.eq_of_toNat_eq
  have hlt := o.isLt
  simp only [opdWidth, opdContainer, opdEndian, opdKind, append_toNat, field_toNat]
  omega

/-- An operand field of format B from its byte. -/
theorem opdB_fields (o : BitVec 12) (h : opdHigh o = 0#4) : opdB (opdImm8 o) = o := by
  have h' := congrArg BitVec.toNat h
  apply BitVec.eq_of_toNat_eq
  have hlt := o.isLt
  simp only [opdHigh, opdImm8, opdB, append_toNat, field_toNat, BitVec.toNat_ofNat] at h' ⊢
  omega

end Sys2Proof.Laws
end

