-- ==== Sys2Proof/Laws/Interpret.lean ====
section
/-! SUPPORT. What `interpret` (spec/43_fieldtype_value.md R107) answers: the smallest tag, and a payload that stands for
the number the bits stand for. -/

namespace Sys2Proof.Laws

open Sys2Proof.Machine

theorem tags_smallest (n : Nat) (h : n ≤ 64) :
    SmallestTag .unsigned n (unsignedTag n) ∧ SmallestTag .signed n (signedTag n) := by
  revert n; decide

theorem tag_width_le (g : Tag) : 8 ≤ g.width ∧ g.width ≤ 64 := by cases g <;> decide

/-- The top bit of an `n`-bit number. -/
theorem top_bit (v : Word) (n : Nat) (h1 : 1 ≤ n) (hv : v.toNat < 2 ^ n) :
    v.getLsbD (n - 1) = decide (2 ^ (n - 1) ≤ v.toNat) := by
  have hn : (2 : Nat) ^ n = 2 ^ (n - 1) * 2 := by rw [← Nat.pow_succ]; congr 1; omega
  have hq : v.toNat / 2 ^ (n - 1) < 2 := Nat.div_lt_of_lt_mul (by omega)
  rw [BitVec.getLsbD, Nat.testBit_eq_decide_div_mod_eq]
  refine decide_eq_decide.mpr ?_
  rw [← Nat.one_le_div_iff (Nat.two_pow_pos (n - 1))]
  generalize v.toNat / 2 ^ (n - 1) = q at *
  omega

/-- The sign extension to `w` bits keeps the number, in two's complement (R6, R101). -/
theorem sextTo_spec (v : Word) (w n : Nat) (h1 : 1 ≤ n) (hnw : n ≤ w) (hw : w ≤ 64) (hv : v.toNat < 2 ^ n) :
    (sextTo w n v).toNat < 2 ^ w ∧ twosComplement w (sextTo w n v).toNat = twosComplement n v.toNat := by
  have p0 : 0 < 2 ^ n := Nat.two_pow_pos n
  have p1 : (2 : Nat) ^ n ≤ 2 ^ w := Nat.pow_le_pow_right (by decide) hnw
  have p2 : (2 : Nat) ^ w ≤ 2 ^ 64 := Nat.pow_le_pow_right (by decide) hw
  have p3 : (2 : Nat) ^ (n - 1) ≤ 2 ^ (w - 1) := Nat.pow_le_pow_right (by decide) (by omega)
  have p4 : (2 : Nat) ^ w = 2 ^ (w - 1) * 2 := by rw [← Nat.pow_succ]; congr 1; omega
  have p5 : (2 : Nat) ^ n = 2 ^ (n - 1) * 2 := by rw [← Nat.pow_succ]; congr 1; omega
  by_cases h : 2 ^ (n - 1) ≤ v.toNat
  · have hp : (sextTo w n v).toNat = v.toNat + (2 ^ w - 2 ^ n) := by
      rw [sextTo, top_bit v n h1 hv, decide_eq_true h, if_pos rfl, BitVec.toNat_add, BitVec.toNat_ofNat,
        Nat.mod_eq_of_lt (a := 2 ^ w - 2 ^ n) (by omega), Nat.mod_eq_of_lt (by omega)]
    rw [hp]
    refine ⟨by omega, ?_⟩
    unfold twosComplement
    rw [if_pos h, if_pos (by omega)]
    push_cast [Nat.cast_sub p1]
    ring
  · have hp : sextTo w n v = v := by rw [sextTo, top_bit v n h1 hv, decide_eq_false h]; rfl
    rw [hp]
    refine ⟨by omega, ?_⟩
    unfold twosComplement
    rw [if_neg h, if_neg (by omega)]

/-- `interpret` in the terms of the statements. -/
theorem interpret_interpreted (cfg : Config) (ft : FieldType) (v : Word) (h1 : 1 ≤ ft.numBits) (h2 : ft.numBits ≤ 64)
    (hv : v.toNat < 2 ^ ft.numBits) :
    Interpreted cfg.intNarrowExt ft.kind ft.numBits v (interpret cfg ft v).1 (interpret cfg ft v).2 := by
  cases ft with
  | float | double => exact ⟨rfl, rfl⟩
  | uint n e c => exact ⟨(tags_smallest n h2).1, rfl⟩
  | int n e c =>
    simp only [FieldType.numBits] at h1 h2 hv ⊢
    have hs := (tags_smallest n h2).2
    obtain ⟨q1, q2⟩ := sextTo_spec v (signedTag n).width n h1 hs.2.1 (tag_width_le _).2 hv
    have hle : (2 : Nat) ^ n ≤ 2 ^ (signedTag n).width := Nat.pow_le_pow_right (by decide) hs.2.1
    refine ⟨hs, ?_⟩
    cases hx : cfg.intNarrowExt
    · simp only [interpret, widenInt, hx]; exact ⟨q1, q2⟩
    · simp only [interpret, widenInt, hx]; exact ⟨by omega, trivial⟩

end Sys2Proof.Laws
end

