-- ==== Sys2Proof/Laws/Streams.lean ====
section
/-! SUPPORT. The two loops over bytes: what the drain writes (spec/41_bitbuffer_pull.md R78, R79) and what a refill's
pushes make of the bytes read (spec/44_field_codec.md R111), in terms of the content as a number. -/

namespace Sys2Proof.Laws

open Sys2Proof.Machine

/-! ## Bytes of a number -/

@[simp] theorem bytesOf_zero (e : Endian) (v : Nat) : bytesOf e 0 v = [] := by cases e <;> rfl

@[simp] theorem bytesOf_length (e : Endian) (k v : Nat) : (bytesOf e k v).length = k := by
  cases e <;> simp [bytesOf]

theorem bytesOf_little_succ (k v : Nat) :
    bytesOf .little (k + 1) v = BitVec.ofNat 8 v :: bytesOf .little k (v / 256) := by
  simp only [bytesOf, List.range_succ_eq_map, List.map_cons, List.map_map, Nat.pow_zero, Nat.div_one]
  congr 1
  apply List.map_congr_left
  intro i _
  simp [Nat.pow_succ, Nat.div_div_eq_div_mul, Nat.mul_comm]

theorem bytesOf_big_succ (k v : Nat) :
    bytesOf .big (k + 1) v = BitVec.ofNat 8 (v / 256 ^ k) :: bytesOf .big k (v % 256 ^ k) := by
  simp only [bytesOf, List.range_succ_eq_map, List.map_cons, List.map_map]
  congr 1
  apply List.map_congr_left
  intro i hi
  have hi := List.mem_range.mp hi
  apply BitVec.eq_of_toNat_eq
  have hp : (256 : Nat) ^ k = 256 ^ (k - 1 - i) * 256 ^ (i + 1) := by rw [← Nat.pow_add]; congr 1; omega
  have hq : (256 : Nat) ^ (i + 1) = 256 * 256 ^ i := by rw [Nat.pow_succ, Nat.mul_comm]
  simp only [Function.comp, BitVec.toNat_ofNat, hp, Nat.mod_mul_right_div_self, hq]
  rw [Nat.mod_mod_of_dvd _ (Nat.dvd_mul_right _ _), show k + 1 - 1 - (i + 1) = k - 1 - i by omega]

/-! ## Push and extraction, in the terms of the statements -/

theorem push_pushed (e : Endian) (b : BitBuffer) (v : Word) {n : Nat} (h : b.avail + n ≤ 64) :
    Pushed e b (b.push e v n) n v.toNat := by
  cases e
  · exact ⟨by simp, pushBe_content b v h⟩
  · exact ⟨by simp, pushLe_content b v h⟩

theorem extract_pulled (e : Endian) (b : BitBuffer) {n : Nat} (h : n ≤ b.avail) :
    Pulled e b (b.extract e n).2 n (b.extract e n).1 := by
  cases e
  · exact ⟨by simp, extractBe_spec b h⟩
  · exact ⟨by simp, extractLe_spec b h⟩

theorem extract_lt (e : Endian) (b : BitBuffer) (n : Nat) : (b.extract e n).1.toNat < 2 ^ n := by
  cases e <;> exact (and_mask_toNat _ n).symm ▸ Nat.mod_lt _ (Nat.two_pow_pos n)

/-! ## The drain -/

theorem aligned_iff (b : BitBuffer) : b.aligned = true ↔ 0 < b.avail ∧ b.avail % 8 = 0 := by
  simp [BitBuffer.aligned]

/-- A buffer of `8k` bits gives up its `k` bytes, in the drain's order, and ends empty. -/
theorem drainLoop_aligned (e : Endian) (k : Nat) (b : BitBuffer) (h : b.avail = 8 * k) :
    (b.drainLoop e k).1 = bytesOf e k b.content.toNat ∧ (b.drainLoop e k).2.avail = 0 := by
  induction k generalizing b with
  | zero => exact ⟨by simp [BitBuffer.drainLoop], h⟩
  | succ k ih =>
    have ha : b.aligned = true := (aligned_iff b).mpr ⟨by omega, by omega⟩
    obtain ⟨i1, i2⟩ := ih (b.extract e 8).2 (by rw [extract_avail]; omega)
    simp only [BitBuffer.drainLoop, ha, if_true, i1, i2, and_true]
    have hp : b.avail - 8 = 8 * k := by omega
    have h256 : (256 : Nat) ^ k = 2 ^ (8 * k) := by rw [Nat.pow_mul]
    cases e with
    | big =>
      obtain ⟨e1, e2, -⟩ := extractBe_spec b (show 8 ≤ b.avail by omega)
      rw [bytesOf_big_succ, e2, hp, h256]
      congr 1
      apply BitVec.eq_of_toNat_eq
      rw [BitVec.toNat_setWidth, e1, hp, BitVec.toNat_ofNat]
    | little =>
      obtain ⟨e1, e2⟩ := extractLe_spec b (show 8 ≤ b.avail by omega)
      rw [bytesOf_little_succ, e2]
      congr 1
      apply BitVec.eq_of_toNat_eq
      rw [BitVec.toNat_setWidth, e1, BitVec.toNat_ofNat, Nat.mod_mod]

/-- A buffer that holds a whole number of bytes, none included, is emptied. -/
theorem drain_whole (e : Endian) (b : BitBuffer) (h : b.avail % 8 = 0) :
    (b.drain e).1 = bytesOf e (b.avail / 8) b.content.toNat ∧ (b.drain e).2.avail = 0 :=
  drainLoop_aligned e (b.avail / 8) b (by omega)

/-- A buffer off a byte boundary gives up nothing (conflict C4). -/
theorem drain_partial (e : Endian) (b : BitBuffer) (h : b.avail % 8 ≠ 0) : b.drain e = ([], b) := by
  have ha : b.aligned = false := by
    rw [Bool.eq_false_iff]; intro h'; exact h ((aligned_iff b).mp h').2
  cases hk : b.avail / 8 <;> simp [BitBuffer.drain, hk, BitBuffer.drainLoop, ha]

/-- An empty buffer gives up nothing. -/
theorem drain_empty (e : Endian) (b : BitBuffer) (h : b.avail = 0) : b.drain e = ([], b) := by
  simp [BitBuffer.drain, BitBuffer.drainLoop, h]

/-! ## The refill -/

theorem foldl_number (a : Nat) (bs : List Byte) :
    bs.foldl (fun a b => a * 256 + b.toNat) a = a * 256 ^ bs.length + numberOf .big bs := by
  induction bs generalizing a with
  | nil => simp [numberOf]
  | cons x xs ih =>
    simp only [List.foldl_cons, numberOf, List.length_cons]
    rw [ih, ih (0 * 256 + x.toNat), Nat.zero_mul, Nat.zero_add, Nat.add_mul, Nat.mul_assoc, Nat.pow_succ,
      Nat.mul_comm 256, Nat.add_assoc]

theorem numberOf_big_cons (x : Byte) (xs : List Byte) :
    numberOf .big (x :: xs) = x.toNat * 256 ^ xs.length + numberOf .big xs := by
  have := foldl_number x.toNat xs
  simpa [numberOf] using this

@[simp] theorem numberOf_little_cons (x : Byte) (xs : List Byte) :
    numberOf .little (x :: xs) = x.toNat + 256 * numberOf .little xs := rfl

theorem numberOf_lt (e : Endian) (bs : List Byte) : numberOf e bs < 256 ^ bs.length := by
  induction bs with
  | nil => cases e <;> simp [numberOf]
  | cons x xs ih =>
    have hx : x.toNat < 256 := x.isLt
    cases e with
    | big =>
      rw [numberOf_big_cons, List.length_cons, Nat.pow_succ]
      have : (x.toNat + 1) * 256 ^ xs.length ≤ 256 * 256 ^ xs.length := Nat.mul_le_mul_right _ (by omega)
      rw [Nat.add_mul] at this; omega
    | little =>
      rw [numberOf_little_cons, List.length_cons, Nat.pow_succ]
      omega

/-- The pushes of a refill add eight bits a byte. -/
theorem pushBytes_avail (b : BitBuffer) (e : Endian) (bs : List Byte) :
    (b.pushBytes e bs).avail = b.avail + 8 * bs.length := by
  induction bs generalizing b with
  | nil => rfl
  | cons x xs ih =>
    show ((b.push e (x.setWidth 64) 8).pushBytes e xs).avail = _
    rw [ih, push_avail, List.length_cons]; omega

theorem byte_mod (x : Byte) : (x.setWidth 64).toNat % 2 ^ 8 = x.toNat := by
  have := x.isLt
  rw [BitVec.toNat_setWidth]; omega

/-- Bytes pushed onto a content: below it in stream order for big, above it for little. -/
theorem pushBytes_content (b : BitBuffer) (e : Endian) (bs : List Byte) (h : b.avail + 8 * bs.length ≤ 64) :
    (b.pushBytes e bs).content.toNat =
      match e with
      | .big => b.content.toNat * 256 ^ bs.length + numberOf .big bs
      | .little => b.content.toNat + numberOf .little bs * 2 ^ b.avail := by
  induction bs generalizing b with
  | nil => cases e <;> simp [BitBuffer.pushBytes, numberOf]
  | cons x xs ih =>
    rw [List.length_cons] at h
    have i := ih (b.push e (x.setWidth 64) 8) (by rw [push_avail]; omega)
    show ((b.push e (x.setWidth 64) 8).pushBytes e xs).content.toNat = _
    rw [i]
    cases e with
    | big =>
      simp only
      rw [pushBe_content b _ (by omega), byte_mod, numberOf_big_cons, List.length_cons, Nat.pow_succ]
      ring
    | little =>
      simp only
      rw [pushLe_content b _ (by omega), byte_mod, push_avail, numberOf_little_cons, Nat.pow_add]
      ring

end Sys2Proof.Laws
end

