-- ==== Sys2Proof/Laws/Ops.lean ====
section
/-! SUPPORT. One lemma per shared operation: everything it can do, so that no later proof unfolds it. -/

namespace Sys2Proof.Laws

open Sys2Proof.Machine

/-! ## Checks -/

/-- `check_td` answers the FieldType of a legal TD (R44). -/
theorem checkTd_legal {k : Kind} {t : TypeOpd} (h : LegalTd k t) :
    ∃ ft, checkTd k t = .ok ft ∧ ft.kind = k ∧ ft.endian = t.e ∧ ft.numBits = requestWidth k t ∧
      ft.container.bytes = 2 ^ t.cc.toNat := by
  have hc : (Container.ofCode t.cc).bytes = 2 ^ t.cc.toNat := by
    generalize t.cc = c; revert c; decide
  cases k with
  | uint =>
    obtain ⟨h1, h2, h3⟩ := h
    refine ⟨.uint t.nb.toNat t.e (.ofCode t.cc), ?_, rfl, rfl, rfl, hc⟩
    simp only [checkTd, checkIntTd]
    rw [if_neg (by omega), if_neg (by omega)]
  | int =>
    obtain ⟨h1, h2, h3⟩ := h
    refine ⟨.int t.nb.toNat t.e (.ofCode t.cc), ?_, rfl, rfl, rfl, hc⟩
    simp only [checkTd, checkIntTd]
    rw [if_neg (by omega), if_neg (by omega)]
  | float =>
    obtain ⟨h1, h2⟩ := h
    refine ⟨.float t.e, ?_, rfl, rfl, rfl, ?_⟩
    · simp only [checkTd]; rw [if_neg (by simp [h1, h2])]
    · simp [FieldType.container, Container.bytes, Container.bits, h2]
  | double =>
    obtain ⟨h1, h2⟩ := h
    refine ⟨.double t.e, ?_, rfl, rfl, rfl, ?_⟩
    · simp only [checkTd]; rw [if_neg (by simp [h1, h2])]
    · simp [FieldType.container, Container.bytes, Container.bits, h2]

/-- A TD that `check_td` accepts is legal, and says which FieldType it is. -/
theorem checkTd_ok {k : Kind} {t : TypeOpd} {ft : FieldType} (h : checkTd k t = .ok ft) :
    LegalTd k t ∧ ft.kind = k ∧ ft.endian = t.e ∧ ft.numBits = requestWidth k t ∧
      ft.container.bytes = 2 ^ t.cc.toNat := by
  have hl : LegalTd k t := by
    cases k with
    | uint | int =>
      simp only [checkTd, checkIntTd] at h
      split at h
      · cases h
      · split at h
        · cases h
        · exact ⟨by omega, by omega, by omega⟩
    | float | double =>
      simp only [checkTd] at h
      split at h
      · cases h
      · rename_i hn; exact ⟨by simpa using fun hh => hn (.inl hh), by simpa using fun hh => hn (.inr hh)⟩
  obtain ⟨ft', h', r⟩ := checkTd_legal hl
  rw [h] at h'; cases h'
  exact ⟨hl, r⟩

theorem numBits_pos_of_legal {k : Kind} {t : TypeOpd} (h : LegalTd k t) :
    1 ≤ requestWidth k t ∧ requestWidth k t ≤ 64 ∧ requestWidth k t ≤ 8 * 2 ^ t.cc.toNat := by
  cases k with
  | uint | int => exact h
  | float | double => obtain ⟨-, h2⟩ := h; simp [requestWidth, h2]

theorem floating_iff (ft : FieldType) : ft.floating = true ↔ ft.kind = .float ∨ ft.kind = .double := by
  cases ft <;> simp [FieldType.floating, FieldType.kind]

theorem misaligned_iff (b : BitBuffer) : b.misaligned = true ↔ b.avail % 8 ≠ 0 := by
  simp [BitBuffer.misaligned]

/-- The field check passes exactly on legal TDs with the alignment their kind needs. -/
theorem checkField_legal {k : Kind} {t : TypeOpd} {b : BitBuffer} (h : LegalTd k t) (ha : AlignedFor k b) :
    ∃ ft, checkField k t b = .ok ft ∧ ft.kind = k ∧ ft.endian = t.e ∧ ft.numBits = requestWidth k t ∧
      ft.container.bytes = 2 ^ t.cc.toNat := by
  obtain ⟨ft, h1, h2, h3⟩ := checkTd_legal h
  refine ⟨ft, ?_, h2, h3⟩
  simp only [checkField, h1]
  rw [if_neg]
  rw [Bool.and_eq_true, floating_iff, misaligned_iff, h2]
  cases k <;> simp_all [AlignedFor]

theorem checkField_ok {k : Kind} {t : TypeOpd} {b : BitBuffer} {ft : FieldType} (h : checkField k t b = .ok ft) :
    LegalTd k t ∧ AlignedFor k b ∧ ft.kind = k ∧ ft.endian = t.e ∧ ft.numBits = requestWidth k t ∧
      ft.container.bytes = 2 ^ t.cc.toNat := by
  simp only [checkField] at h
  split at h
  · cases h
  · rename_i ft' h1
    split at h
    · cases h
    · rename_i hn
      cases h
      obtain ⟨l, r⟩ := checkTd_ok h1
      refine ⟨l, ?_, r⟩
      rw [Bool.and_eq_true, floating_iff, misaligned_iff, r.1] at hn
      cases k <;> simp_all [AlignedFor]

/-- What the field check raises, and on what. -/
theorem checkField_error {k : Kind} {t : TypeOpd} {b : BitBuffer} {x : FaultCause}
    (h : checkField k t b = .error x) :
    ((x = .unsupportedWidth ∧ (k = .uint ∨ k = .int) ∧ (t.nb.toNat = 0 ∨ t.nb.toNat > 64)) ∨
     (x = .typeFormat ∧ ¬ LegalTd k t ∧ ((k = .uint ∨ k = .int) → 1 ≤ t.nb.toNat ∧ t.nb.toNat ≤ 64)) ∨
     (x = .misalignedFloat ∧ LegalTd k t ∧ (k = .float ∨ k = .double) ∧ b.avail % 8 ≠ 0)) := by
  simp only [checkField] at h
  split at h
  · rename_i y h1
    cases h
    cases k with
    | uint | int =>
      simp only [checkTd, checkIntTd] at h1
      split at h1
      · cases h1; exact .inl ⟨rfl, by simp, by assumption⟩
      · split at h1
        · cases h1
          refine .inr (.inl ⟨rfl, ?_, fun _ => by omega⟩)
          rintro ⟨-, -, h3⟩; omega
        · cases h1
    | float | double =>
      simp only [checkTd] at h1
      split at h1
      · rename_i hn
        cases h1
        refine .inr (.inl ⟨rfl, ?_, by simp⟩)
        rintro ⟨h2, h3⟩; exact hn.elim (fun g => g h2) (fun g => g h3)
      · cases h1
  · rename_i ft h1
    split at h
    · rename_i hn
      cases h
      obtain ⟨l, r⟩ := checkTd_ok h1
      rw [Bool.and_eq_true, floating_iff, misaligned_iff, r.1] at hn
      exact .inr (.inr ⟨rfl, l, hn⟩)
    · cases h

/-! ## Command bodies -/

theorem pushByte_cases (e : Endian) (imm8 : Byte) (s : State) :
    (64 < s.buf.avail + 8 ∧ pushByte e imm8 s = s.raise .capacity 0) ∨
    (s.buf.avail + 8 ≤ 64 ∧
      pushByte e imm8 s = (s.setBuf (s.buf.push e (imm8.setWidth 64) 8)).respond .ok none 0) := by
  unfold pushByte
  split
  · exact .inl ⟨by omega, rfl⟩
  · exact .inr ⟨by omega, rfl⟩

theorem pushValue_cases (e : Endian) (n : BitVec 7) (data : Word) (s : State) :
    (n.toNat = 0 ∧ pushValue e n data s = s.raise .unsupportedWidth 0) ∨
    (1 ≤ n.toNat ∧ 64 < s.buf.avail + n.toNat ∧ pushValue e n data s = s.raise .capacity 0) ∨
    (1 ≤ n.toNat ∧ s.buf.avail + n.toNat ≤ 64 ∧
      pushValue e n data s = (s.setBuf (s.buf.push e data n.toNat)).respond .ok none 0) := by
  unfold pushValue
  split
  · exact .inl ⟨by omega, rfl⟩
  · split
    · exact .inr (.inl ⟨by omega, by omega, rfl⟩)
    · exact .inr (.inr ⟨by omega, by omega, rfl⟩)

theorem pullField_cases (s : State) (ft : FieldType) :
    (s.buf.avail < ft.numBits ∧ s.pullField ft = s.raise .underflow 0) ∨
    (ft.numBits ≤ s.buf.avail ∧
      s.pullField ft = (s.setBuf (s.buf.extract ft.endian ft.numBits).2).respond .ok
        (some (interpret s.cfg ft (s.buf.extract ft.endian ft.numBits).1).1)
        (interpret s.cfg ft (s.buf.extract ft.endian ft.numBits).1).2) := by
  unfold State.pullField
  split
  · exact .inl ⟨by omega, rfl⟩
  · exact .inr ⟨by omega, rfl⟩

theorem pullByte_cases (s : State) :
    (s.buf.aligned = true ∧
      pullByte s = (s.setBuf (s.buf.extractBe 8).2).respond .ok (some .u8) (s.buf.extractBe 8).1) ∨
    (s.buf.aligned = false ∧ pullByte s = s.respond .noItem none 0) := by
  unfold pullByte
  split
  · rename_i h; exact .inl ⟨h, rfl⟩
  · rename_i h; exact .inr ⟨by simpa using h, rfl⟩

theorem pullValue_cases (k : Kind) (t : TypeOpd) (s : State) :
    (∃ x, checkField k t s.buf = .error x ∧ pullValue k t s = s.raise x 0) ∨
    (∃ ft, checkField k t s.buf = .ok ft ∧ pullValue k t s = s.pullField ft) := by
  unfold pullValue
  split
  · rename_i x h; exact .inl ⟨x, h, rfl⟩
  · rename_i ft h; exact .inr ⟨ft, h, rfl⟩

theorem decodeField_cases (k : Kind) (t : TypeOpd) (s : State) :
    (∃ x, checkField k t s.buf = .error x ∧ decodeField k t s = s.raise x 0) ∨
    (∃ ft, checkField k t s.buf = .ok ft ∧
      ((s.buf.avail = 0 ∧ s.input.length < ft.container.bytes ∧
          decodeField k t s = (s.setInput []).raise .endOfInput (BitVec.ofNat 64 s.input.length)) ∨
       (s.buf.avail = 0 ∧ ft.container.bytes ≤ s.input.length ∧
          decodeField k t s = (s.refill ft.container.bytes ft.endian).pullField ft) ∨
       (s.buf.avail ≠ 0 ∧ decodeField k t s = s.pullField ft))) := by
  unfold decodeField
  split
  · rename_i x h; exact .inl ⟨x, h, rfl⟩
  · rename_i ft h
    refine .inr ⟨ft, h, ?_⟩
    split
    · rename_i he
      have he : s.buf.avail = 0 := by simpa [BitBuffer.empty] using he
      split
      · exact .inl ⟨he, by assumption, rfl⟩
      · exact .inr (.inl ⟨he, by omega, rfl⟩)
    · rename_i he
      exact .inr (.inr ⟨by simpa [BitBuffer.empty] using he, rfl⟩)

theorem encodeField_cases (k : Kind) (t : TypeOpd) (data : Word) (s : State) :
    (∃ x, checkField k t s.buf = .error x ∧ encodeField k t data s = s.raise x 0) ∨
    (∃ ft, checkField k t s.buf = .ok ft ∧
      ((64 < s.buf.avail + ft.numBits ∧ encodeField k t data s = s.raise .capacity 0) ∨
       (s.buf.avail + ft.numBits ≤ 64 ∧
          encodeField k t data s = (s.setBuf (s.buf.push ft.endian data ft.numBits)).drainOut ft.endian))) := by
  unfold encodeField
  split
  · rename_i x h; exact .inl ⟨x, h, rfl⟩
  · rename_i ft h
    obtain ⟨l, -, -, -, hw, -⟩ := checkField_ok h
    have := numBits_pos_of_legal l
    refine .inr ⟨ft, h, ?_⟩
    split
    · exact .inl ⟨by omega, rfl⟩
    · exact .inr ⟨by omega, rfl⟩

/-- The drain to OUT on a whole number of bytes, and off a byte boundary. -/
theorem drainOut_cases (s : State) (e : Endian) :
    (s.buf.avail % 8 = 0 ∧ ∃ b, b.avail = 0 ∧
      s.drainOut e = ((s.setBuf b).emit (bytesOf e (s.buf.avail / 8) s.buf.content.toNat)).respond .ok none
        (BitVec.ofNat 64 (s.buf.avail / 8))) ∨
    (s.buf.avail % 8 ≠ 0 ∧ s.drainOut e = s.respond .ok none 0) := by
  by_cases h : s.buf.avail % 8 = 0
  · obtain ⟨h1, h2⟩ := drain_whole e s.buf h
    refine .inl ⟨h, (s.buf.drain e).2, h2, ?_⟩
    simp only [State.drainOut, h1, bytesOf_length]
  · refine .inr ⟨h, ?_⟩
    simp only [State.drainOut, drain_partial e s.buf h]
    simp [State.setBuf, State.emit, State.respond]

/-- The drain of a buffer that is not byte-aligned, empty or off a byte boundary, answers 0 and changes nothing. -/
theorem drainOut_nothing (s : State) (e : Endian) (h : s.buf.avail = 0 ∨ s.buf.avail % 8 ≠ 0) :
    s.drainOut e = s.respond .ok none 0 := by
  have hd : s.buf.drain e = ([], s.buf) := h.elim (drain_empty e s.buf) (drain_partial e s.buf)
  simp only [State.drainOut, hd]
  simp [State.setBuf, State.emit, State.respond]

theorem padBits_spec (a : Nat) : (a + padBits a) % 8 = 0 ∧ (a + padBits a) / 8 = (a + 7) / 8 ∧ padBits a < 8 := by
  unfold padBits; omega

/-! ## Meanings: a family of rows as its body -/

theorem exec_pushb (e : Endian) (b : Byte) (s : State) : exec (.pushb e b) s = .next (pushByte e b s) := by
  cases e <;> rfl
theorem exec_pushv (e : Endian) (n : BitVec 7) (d : Word) (s : State) :
    exec (.pushv e n d) s = .next (pushValue e n d s) := by cases e <;> rfl
theorem exec_pullv (k : Kind) (t : TypeOpd) (s : State) : exec (.pullv k t) s = .next (pullValue k t s) := by
  cases k <;> rfl
theorem exec_drain (e : Endian) (s : State) : exec (.drain e) s = .next (s.drainOut e) := by cases e <;> rfl
theorem exec_dec (k : Kind) (t : TypeOpd) (s : State) : exec (.dec k t) s = .next (decodeField k t s) := by
  cases k <;> rfl
theorem exec_enc (k : Kind) (t : TypeOpd) (d : Word) (s : State) :
    exec (.enc k t d) s = .next (encodeField k t d s) := by cases k <;> rfl
theorem exec_flush (e : Endian) (s : State) : exec (.flush e) s = .next (flushBuffer e s) := by cases e <;> rfl

/-! ## Fetch and step -/

/-- Everything the command port can do with its next command (R47). -/
theorem fetch_cases (s : State) :
    (s.commands = [] ∧ fetch s = .idle) ∨
    (∃ c rest, s.commands = c :: rest ∧ s.fault ≠ 0 ∧ c.cw ≠ resetWord ∧
      fetch s = .answered ((s.setCommands rest).respond .faulted none (s.fault.setWidth 64))) ∨
    (∃ c rest x, s.commands = c :: rest ∧ (s.fault = 0 ∨ c.cw = resetWord) ∧ decode c = .error x ∧
      fetch s = .answered ((s.setCommands rest).raise .illegalCommand 0)) ∨
    (∃ c rest i, s.commands = c :: rest ∧ (s.fault = 0 ∨ c.cw = resetWord) ∧ decode c = .ok i ∧
      fetch s = .run i (s.setCommands rest)) := by
  cases hc : s.commands with
  | nil => exact .inl ⟨rfl, by simp [fetch, hc]⟩
  | cons c rest =>
    refine .inr ?_
    by_cases hf : s.fault ≠ 0 ∧ c.cw ≠ resetWord
    · exact .inl ⟨c, rest, rfl, hf.1, hf.2, by unfold fetch; rw [hc]; exact if_pos hf⟩
    · have hg : s.fault = 0 ∨ c.cw = resetWord := by
        by_cases h0 : s.fault = 0
        · exact .inl h0
        · exact .inr (by_contra fun h1 => hf ⟨h0, h1⟩)
      cases hd : decode c with
      | error x =>
        refine .inr (.inl ⟨c, rest, x, rfl, hg, hd, ?_⟩)
        unfold fetch; rw [hc]; refine (if_neg hf).trans ?_; rw [hd]
      | ok i =>
        refine .inr (.inr ⟨c, rest, i, rfl, hg, hd, ?_⟩)
        unfold fetch; rw [hc]; refine (if_neg hf).trans ?_; rw [hd]

/-- What one step does, and on what. -/
theorem step_cases (s : State) :
    (s.commands = [] ∧ step s = .next s) ∨
    (∃ c rest, s.commands = c :: rest ∧ s.fault ≠ 0 ∧ c.cw ≠ resetWord ∧
      step s = .next ((s.setCommands rest).respond .faulted none (s.fault.setWidth 64))) ∨
    (∃ c rest x, s.commands = c :: rest ∧ (s.fault = 0 ∨ c.cw = resetWord) ∧ decode c = .error x ∧
      step s = .next ((s.setCommands rest).raise .illegalCommand 0)) ∨
    (∃ c rest i, s.commands = c :: rest ∧ (s.fault = 0 ∨ c.cw = resetWord) ∧ decode c = .ok i ∧
      step s = exec i (s.setCommands rest)) := by
  rcases fetch_cases s with ⟨h, hf⟩ | ⟨c, r, h, h1, h2, hf⟩ | ⟨c, r, x, h, h1, h2, hf⟩ | ⟨c, r, i, h, h1, h2, hf⟩
  · exact .inl ⟨h, by simp [step, hf]⟩
  · exact .inr (.inl ⟨c, r, h, h1, h2, by simp [step, hf]⟩)
  · exact .inr (.inr (.inl ⟨c, r, x, h, h1, h2, by simp [step, hf]⟩))
  · exact .inr (.inr (.inr ⟨c, r, i, h, h1, h2, by simp [step, hf]⟩))

end Sys2Proof.Laws
end

