-- ==== Sys2Proof/Laws/PerInstr.lean ====
section
/-! SUPPORT. Per-instruction laws. `EncodesToRow`: the command word the encoder builds for an instruction carries the
match bits of its row of the opcode map under the row's mask (spec/30_encoding.md R45). -/

namespace Sys2Proof.Laws.EncodesToRow

/-- CW AND mask = match, for the instruction's own row. -/
def Statement (i : Instr) : Prop := (encode i).cw &&& i.mnemonic.row.mask = i.mnemonic.row.pattern

/-- A word under a mask written as a word, field by field. -/
theorem wordOf_and (op op' : BitVec 4) (o o' : BitVec 12) :
    wordOf op o &&& (op' ++ (0xFFFF#16 ++ o')) = wordOf (op &&& op') (o &&& o') :=
  (BitVec.and_append (x₁ := op) (x₂ := op') (y₁ := 0#16 ++ o) (y₂ := 0xFFFF#16 ++ o')).trans <|
    congrArg (fun x => (op &&& op') ++ x) <|
      (BitVec.and_append (x₁ := 0#16) (x₂ := 0xFFFF#16) (y₁ := o) (y₂ := o')).trans <|
        congrArg (fun x => x ++ (o &&& o')) BitVec.zero_and

theorem opdB_and (b : Byte) : opdB b &&& 0xF00#12 = 0#12 := by
  rw [show (0xF00#12) = 0xF#4 ++ 0#8 by decide, opdB, BitVec.and_append, BitVec.zero_and, BitVec.and_zero]; decide

theorem opdW_and (n : BitVec 7) (e : Endian) : opdW n e &&& 0x01F#12 = opdW 0 e := by
  rw [show (0x01F#12) = 0#7 ++ (3#2 ++ (1#1 ++ 3#2)) by decide, opdW, BitVec.and_append, BitVec.and_append,
    BitVec.and_append, BitVec.and_zero]
  cases e <;> decide

theorem opdT_and (k : Kind) (t : TypeOpd) : opdT k t &&& 0x003#12 = 0#10 ++ k.code := by
  rw [show (0x003#12) = 0#7 ++ (0#2 ++ (0#1 ++ 3#2)) by decide, opdT, BitVec.and_append, BitVec.and_append,
    BitVec.and_append, BitVec.and_zero, BitVec.and_zero, BitVec.and_zero]
  cases k <;> decide

/-- Format B. -/
theorem formatB (op : BitVec 4) (b : Byte) : wordOf op (opdB b) &&& 0xFFFFFF00#32 = wordOf op 0#12 := by
  rw [show (0xFFFFFF00#32) = 0xF#4 ++ (0xFFFF#16 ++ 0xF00#12) by decide, wordOf_and, opdB_and]
  rw [show op &&& 0xF#4 = op by revert op; decide]

/-- Format W. -/
theorem formatW (op : BitVec 4) (n : BitVec 7) (e : Endian) :
    wordOf op (opdW n e) &&& 0xFFFFF01F#32 = wordOf op (opdW 0 e) := by
  rw [show (0xFFFFF01F#32) = 0xF#4 ++ (0xFFFF#16 ++ 0x01F#12) by decide, wordOf_and, opdW_and]
  rw [show op &&& 0xF#4 = op by revert op; decide]

/-- Format T. -/
theorem formatT (op : BitVec 4) (k : Kind) (t : TypeOpd) :
    wordOf op (opdT k t) &&& 0xFFFFF003#32 = wordOf op (0#10 ++ k.code) := by
  rw [show (0xFFFFF003#32) = 0xF#4 ++ (0xFFFF#16 ++ 0x003#12) by decide, wordOf_and, opdT_and]
  rw [show op &&& 0xF#4 = op by revert op; decide]

theorem pushbBe (b : Byte) : Statement (.pushbBe b) := (formatB 0x1 b).trans rfl
theorem pushbLe (b : Byte) : Statement (.pushbLe b) := (formatB 0x2 b).trans rfl
theorem pushvBe (n : BitVec 7) (d : Word) : Statement (.pushvBe n d) := (formatW 0x3 n .big).trans rfl
theorem pushvLe (n : BitVec 7) (d : Word) : Statement (.pushvLe n d) := (formatW 0x3 n .little).trans rfl
theorem pullvU (t : TypeOpd) : Statement (.pullvU t) := (formatT 0x4 .uint t).trans rfl
theorem pullvI (t : TypeOpd) : Statement (.pullvI t) := (formatT 0x4 .int t).trans rfl
theorem pullvF (t : TypeOpd) : Statement (.pullvF t) := (formatT 0x4 .float t).trans rfl
theorem pullvD (t : TypeOpd) : Statement (.pullvD t) := (formatT 0x4 .double t).trans rfl
theorem pullb : Statement .pullb := rfl
theorem drainBe : Statement .drainBe := rfl
theorem drainLe : Statement .drainLe := rfl
theorem qempty : Statement .qempty := rfl
theorem qalign : Statement .qalign := rfl
theorem mask (n : BitVec 7) : Statement (.mask n) := (formatW 0x9 n .big).trans rfl
theorem rdbuf : Statement .rdbuf := rfl
theorem rdavl : Statement .rdavl := rfl
theorem decU (t : TypeOpd) : Statement (.decU t) := (formatT 0xC .uint t).trans rfl
theorem decI (t : TypeOpd) : Statement (.decI t) := (formatT 0xC .int t).trans rfl
theorem decF (t : TypeOpd) : Statement (.decF t) := (formatT 0xC .float t).trans rfl
theorem decD (t : TypeOpd) : Statement (.decD t) := (formatT 0xC .double t).trans rfl
theorem encU (t : TypeOpd) (d : Word) : Statement (.encU t d) := (formatT 0xD .uint t).trans rfl
theorem encI (t : TypeOpd) (d : Word) : Statement (.encI t d) := (formatT 0xD .int t).trans rfl
theorem encF (t : TypeOpd) (d : Word) : Statement (.encF t d) := (formatT 0xD .float t).trans rfl
theorem encD (t : TypeOpd) (d : Word) : Statement (.encD t d) := (formatT 0xD .double t).trans rfl
theorem flushBe : Statement .flushBe := rfl
theorem flushLe : Statement .flushLe := rfl
theorem reset : Statement .reset := rfl

end Sys2Proof.Laws.EncodesToRow
end

