-- ==== Sys2Proof/Laws/Run.lean ====
section
/-! SUPPORT. Runs of the machine behind Host.Core, a step at a time: what proofs about `core.run` cite. -/

namespace Sys2Proof.Laws

open Sys2Proof.Machine

@[simp] theorem run_zero (s : State) : core.run 0 s = .next s := rfl

/-- A step that answers a next state goes on from it. -/
theorem run_succ (k : Nat) {s t : State} (h : step s = .next t) : core.run (k + 1) s = core.run k t := by
  have e : core.step s = .next t := h
  simp only [Host.Core.run, e]

/-- A run of `j + k` steps is a run of `j` and then a run of `k`. -/
theorem run_add (j k : Nat) {s t : State} (h : core.run j s = .next t) : core.run (j + k) s = core.run k t := by
  induction j generalizing s with
  | zero => cases h; simp
  | succ j ih =>
    cases hs : step s with
    | next s1 =>
      rw [run_succ j hs] at h
      rw [show j + 1 + k = (j + k) + 1 by omega, run_succ (j + k) hs, ih h]
    | fault x => cases x
    | refused x =>
      have e : core.step s = .refused x := hs
      simp only [Host.Core.run, e] at h
      cases h

end Sys2Proof.Laws
end

