-- ==== Sys2Proof/Tests/Slice0.lean ====
section
/-! SUPPORT. The model's own tests. The expected results are those of spec/95_test_vectors.md (the vector's name stands
in each docstring) or of the rules' own examples; the words are written from spec/30_encoding.md R41 to R45. Then one
witness for every statement that has hypotheses: a state and operands that meet them all. -/

namespace Sys2Proof.Tests

open Sys2Proof.Machine

/-! ## Helpers -/

/-- The reset state with `avail` bits in the buffer. -/
def holding (avail : Nat) (bits : Word) : State := { State.reset with buf := ⟨bits, avail⟩ }

/-- The reset state with bytes in IN. -/
def fed (bs : List Byte) : State := { State.reset with input := bs }

/-- One step on a command the host presents. -/
def send (s : State) (cw : BitVec 32) (data : Word) : Host.Outcome State Fault Refusal := step (s.present ⟨cw, data⟩)

/-- The response, the count, the content and OUT after one step from a state with no response and OUT empty. -/
def shows (o : Host.Outcome State Fault Refusal) (r : Response) (avail : Nat) (content : Word) (out : List Byte) :
    Bool :=
  match o with
  | .next t => t.responses == [r] && t.buf.avail == avail && t.buf.content == content && t.output == out
  | .fault _ | .refused _ => false

/-- `fault` and IN after one step. -/
def leaves (o : Host.Outcome State Fault Refusal) (fault : BitVec 4) (input : List Byte) : Bool :=
  match o with
  | .next t => t.fault == fault && t.input == input
  | .fault _ | .refused _ => false

def done : Response := ⟨.ok, none, 0⟩
def wrote (k : Word) : Response := ⟨.ok, none, k⟩
def value (g : Tag) (p : Word) : Response := ⟨.ok, some g, p⟩
def refusal (x : FaultCause) : Response := ⟨.raised x, none, 0⟩

/-! ## Well-formed terms -/

/-- The only check: a MASK of 65 to 127 bits is no command (R46). -/
theorem test_wellFormed_mask : (Instr.mask 65).wellFormed = false ∧ (Instr.mask 127).wellFormed = false ∧
    (Instr.mask 64).wellFormed = true := by decide

/-- Illegal TDs and widths select their row all the same (R44, R45). -/
theorem test_wellFormed_illegal_operands :
    (Instr.pushvBe 127 0).wellFormed = true ∧ (Instr.decU ⟨65, 0, .big⟩).wellFormed = true := by decide

/-- R93: a width of 0 or 65, or above its container, is no FieldType. -/
theorem test_wellFormed_fieldType : (FieldType.uint 0 .big .c8).wellFormed = false ∧
    (FieldType.int 65 .big .c64).wellFormed = false ∧ (FieldType.uint 9 .big .c8).wellFormed = false ∧
    (FieldType.int 8 .little .c8).wellFormed = true := by decide

/-- R98: a payload wider than its tag is no Value. -/
theorem test_wellFormed_value :
    (Value.wellFormed ⟨.u8, 0x100⟩) = false ∧ (Value.wellFormed ⟨.u8, 0xFF⟩) = true := by decide

/-! ## Decoding: every row, its word written field by field (op, 16 zeros, opd) -/

theorem test_decode_push :
    decode ⟨0b0001_0000000000000000_0000_10100101, 0⟩ = .ok (.pushbBe 0xA5) ∧
    decode ⟨0b0010_0000000000000000_0000_10100101, 0⟩ = .ok (.pushbLe 0xA5) ∧
    decode ⟨0b0011_0000000000000000_1000001_00_0_00, 9⟩ = .ok (.pushvBe 65 9) ∧
    decode ⟨0b0011_0000000000000000_0000110_00_1_00, 9⟩ = .ok (.pushvLe 6 9) := by decide

theorem test_decode_pull :
    decode ⟨0b0100_0000000000000000_0000011_01_1_00, 0⟩ = .ok (.pullvU ⟨3, 1, .little⟩) ∧
    decode ⟨0b0100_0000000000000000_0000100_10_0_01, 0⟩ = .ok (.pullvI ⟨4, 2, .big⟩) ∧
    decode ⟨0b0100_0000000000000000_0000000_10_1_10, 0⟩ = .ok (.pullvF ⟨0, 2, .little⟩) ∧
    decode ⟨0b0100_0000000000000000_0000000_11_0_11, 0⟩ = .ok (.pullvD ⟨0, 3, .big⟩) ∧
    decode ⟨0b0101_0000000000000000_000000000000, 0⟩ = .ok .pullb ∧
    decode ⟨0b0110_0000000000000000_0000000_00_0_00, 0⟩ = .ok .drainBe ∧
    decode ⟨0b0110_0000000000000000_0000000_00_1_00, 0⟩ = .ok .drainLe := by decide

theorem test_decode_query :
    decode ⟨0b0111_0000000000000000_000000000000, 0⟩ = .ok .qempty ∧
    decode ⟨0b1000_0000000000000000_000000000000, 0⟩ = .ok .qalign ∧
    decode ⟨0b1001_0000000000000000_1000000_00_0_00, 0⟩ = .ok (.mask 64) ∧
    decode ⟨0b1010_0000000000000000_000000000000, 0⟩ = .ok .rdbuf ∧
    decode ⟨0b1011_0000000000000000_000000000000, 0⟩ = .ok .rdavl := by decide

theorem test_decode_codec :
    decode ⟨0b1100_0000000000000000_0000011_01_1_00, 0⟩ = .ok (.decU ⟨3, 1, .little⟩) ∧
    decode ⟨0b1100_0000000000000000_0000100_10_0_01, 0⟩ = .ok (.decI ⟨4, 2, .big⟩) ∧
    decode ⟨0b1100_0000000000000000_0000000_10_1_10, 0⟩ = .ok (.decF ⟨0, 2, .little⟩) ∧
    decode ⟨0b1100_0000000000000000_0000000_11_0_11, 0⟩ = .ok (.decD ⟨0, 3, .big⟩) ∧
    decode ⟨0b1101_0000000000000000_0000011_01_1_00, 5⟩ = .ok (.encU ⟨3, 1, .little⟩ 5) ∧
    decode ⟨0b1101_0000000000000000_0000100_10_0_01, 5⟩ = .ok (.encI ⟨4, 2, .big⟩ 5) ∧
    decode ⟨0b1101_0000000000000000_0000000_10_1_10, 5⟩ = .ok (.encF ⟨0, 2, .little⟩ 5) ∧
    decode ⟨0b1101_0000000000000000_0000000_11_0_11, 5⟩ = .ok (.encD ⟨0, 3, .big⟩ 5) ∧
    decode ⟨0b1110_0000000000000000_0000000_00_0_00, 0⟩ = .ok .flushBe ∧
    decode ⟨0b1110_0000000000000000_0000000_00_1_00, 0⟩ = .ok .flushLe := by decide

theorem test_decode_system : decode ⟨0b1111_0000000000000000_000000000000, 5⟩ = .ok .reset := by decide

/-- R46, one word of each group, beside its legal neighbours. -/
theorem test_decode_reserved :
    decode ⟨0x00000001, 0⟩ = .error .reservedOpcode ∧ decode ⟨0x50001000, 0⟩ = .error .reservedBits ∧
    decode ⟨0xF8000000, 0⟩ = .error .reservedBits ∧ decode ⟨0x10000100, 0⟩ = .error .operandBits ∧
    decode ⟨0x60000001, 0⟩ = .error .operandBits ∧ decode ⟨0x60000008, 0⟩ = .error .operandBits ∧
    decode ⟨0x30000008, 0⟩ = .error .operandBits ∧ decode ⟨0x30000002, 0⟩ = .error .operandBits ∧
    decode ⟨0x90000004, 0⟩ = .error .operandBits ∧ decode ⟨0x90000820, 0⟩ = .error .maskWidth := by decide

/-- The host's numbering: CW in bits 31..0, DATA in bits 95..32, bits above `nbits` zero. -/
theorem test_decodeTableWord :
    decodeTableWord 96 (0x123400000000 + 0x30000064) = some (.pushvLe 3 0x1234) ∧
    decodeTableWord 32 (0x123400000000 + 0x30000064) = some (.pushvLe 3 0) ∧
    decodeTableWord 32 0x90000820 = none := by decide

/-- No two rows of the opcode map overlap (R45). -/
theorem test_rows_do_not_overlap :
    List.Pairwise (fun a b : Mnemonic => a.row.pattern &&& (a.row.mask &&& b.row.mask) ≠
        b.row.pattern &&& (a.row.mask &&& b.row.mask))
      [.pushbBe, .pushbLe, .pushvBe, .pushvLe, .pullvU, .pullvI, .pullvF, .pullvD, .pullb, .drainBe, .drainLe, .qempty,
       .qalign, .mask, .rdbuf, .rdavl, .decU, .decI, .decF, .decD, .encU, .encI, .encF, .encD, .flushBe, .flushLe,
       .reset] := by decide

/-! ## The text side -/

/-- R54's table and R56: `uint3_be:8`, `int4_be:16`, `float_le`, case-insensitive, default container. -/
theorem test_parseType :
    parseType "uint3_be:8".toList = .ok (.uint 3 .big .c8) ∧ parseType "INT4_BE:16".toList = .ok (.int 4 .big .c16) ∧
    parseType "float_le".toList = .ok (.float .little) ∧ parseType "uint33_le".toList = .ok (.uint 33 .little .c64) := by
  decide

/-- R55: a width of 0 or 65, a container below the width or not one of the four, a width on a float, white space. -/
theorem test_parseType_errors :
    parseType "uint0_be".toList = .error .unsupportedWidth ∧ parseType "int65_le".toList = .error .unsupportedWidth ∧
    parseType "uint9_be:8".toList = .error .typeFormat ∧ parseType "uint9_be:24".toList = .error .typeFormat ∧
    parseType "float32_be".toList = .error .typeFormat ∧ parseType "uint3 _be".toList = .error .typeFormat := by
  decide

/-- The words of P1 and V-C3 from their lines (R52, R57). -/
theorem test_assembleLine :
    assembleLine "PUSHV.BE 3, 7".toList = .ok (some ⟨0x30000060, 7⟩) ∧
    assembleLine "enc uint16_le, 0x1234 ; x".toList = .ok (some ⟨0xD000020C, 0x1234⟩) ∧
    assembleLine "ENC int4_be, -2".toList = .ok (some ⟨0xD0000081, 0xFFFFFFFFFFFFFFFE⟩) ∧
    assembleLine "MASK 3".toList = .ok (some ⟨0x90000060, 0⟩) := by decide

/-- R57, V-C3: a Float or Double is a hexadecimal pattern; a decimal one is no line. -/
theorem test_assembleLine_float :
    assembleLine "ENC float_be, 0x40490FDB".toList = .ok (some ⟨0xD0000012, 0x40490FDB⟩) ∧
    assembleLine "ENC float_be, 3".toList = .error .badLine ∧
    assembleLine "ENC double_le, -1".toList = .error .badLine := by decide

/-! ## One step each -/

/-- PB-2. -/
theorem test_pushbBe : shows (send (holding 8 0x12) 0x10000034 0) done 16 0x1234 [] = true := by decide
/-- PB-6. -/
theorem test_pushbBe_full :
    shows (send (holding 64 0xFF) 0x10000001 0) (refusal .capacity) 64 0xFF [] = true := by decide
/-- PB-4. -/
theorem test_pushbLe : shows (send (holding 8 0x12) 0x20000034 0) done 16 0x3412 [] = true := by decide
/-- PB-7. -/
theorem test_pushbLe_full :
    shows (send (holding 57 0) 0x20000001 0) (refusal .capacity) 57 0 [] = true := by decide
/-- S1, second command. -/
theorem test_pushvBe : shows (send (holding 3 7) 0x30000080 2) done 7 0x72 [] = true := by decide
/-- PV-3. -/
theorem test_pushvBe_zero :
    shows (send (holding 0 0) 0x30000000 1) (refusal .unsupportedWidth) 0 0 [] = true := by decide
/-- PV-2. -/
theorem test_pushvLe : shows (send (holding 3 7) 0x30000044 0xFE) done 5 0x17 [] = true := by decide
/-- V-C1, third command: the dead bits never become content. -/
theorem test_pushvLe_dead_bits : shows (send (holding 0 0xFF) 0x30000104 0) done 8 0 [] = true := by decide
/-- S4, first command. -/
theorem test_pullvU : shows (send (holding 8 0x97) 0x40000064 0) (value .u8 7) 5 0x12 [] = true := by decide
/-- UF-1. -/
theorem test_pullvU_underflow :
    shows (send (holding 8 0xAB) 0x40000128 0) (refusal .underflow) 8 0xAB [] = true := by decide
/-- V-SX-1, row 2. -/
theorem test_pullvI : shows (send (holding 12 0x800) 0x4000018D 0) (value .i16 0xF800) 0 0 [] = true := by decide
/-- V-SX-1, row 2, under the other setting. -/
theorem test_pullvI_zero :
    shows (send { holding 12 0x800 with cfg := ⟨.zero⟩ } 0x4000018D 0) (value .i16 0x0800) 0 0 [] = true := by decide
/-- PF-2: a NaN passes through. -/
theorem test_pullvF :
    shows (send (holding 32 0x7FC00001) 0x40000016 0) (value .f32 0x7FC00001) 0 0 [] = true := by decide
/-- MF-1. -/
theorem test_pullvF_misaligned :
    shows (send (holding 4 0) 0x40000012 0) (refusal .misalignedFloat) 4 0 [] = true := by decide
/-- PD-1. -/
theorem test_pullvD :
    shows (send (holding 64 0x400921FB54442D18) 0x4000001B 0) (value .f64 0x400921FB54442D18) 0 0 [] = true := by decide
/-- UF-3. -/
theorem test_pullvD_underflow :
    shows (send (holding 0 0) 0x4000001B 0) (refusal .underflow) 0 0 [] = true := by decide
/-- LB-1. -/
theorem test_pullb : shows (send (holding 16 0x1234) 0x50000000 0) (value .u8 0x12) 8 0x34 [] = true := by decide
/-- LB-4. -/
theorem test_pullb_none :
    shows (send (holding 12 0xABC) 0x50000000 0) ⟨.noItem, none, 0⟩ 12 0xABC [] = true := by decide
/-- DR-4. -/
theorem test_drainBe : shows (send (holding 16 0x3412) 0x60000000 0) (wrote 2) 0 0 [0x34, 0x12] = true := by decide
/-- DR-5. -/
theorem test_drainBe_partial : shows (send (holding 12 0xABC) 0x60000000 0) (wrote 0) 12 0xABC [] = true := by decide
/-- DR-3. -/
theorem test_drainLe : shows (send (holding 16 0x3412) 0x60000004 0) (wrote 2) 0 0 [0x12, 0x34] = true := by decide
/-- Q1, first command. -/
theorem test_qempty : shows (send (holding 0 0) 0x70000000 0) (wrote 1) 0 0 [] = true := by decide
/-- S5, 64-1. -/
theorem test_qalign : shows (send (holding 64 0xF) 0x80000000 0) (wrote 1) 64 0xF [] = true := by decide
/-- S5: false of an empty buffer. -/
theorem test_qalign_empty : shows (send (holding 0 0) 0x80000000 0) (wrote 0) 0 0 [] = true := by decide
/-- S11: MASK 3 is 7. -/
theorem test_mask : shows (send (holding 0 0) 0x90000060 0) (wrote 7) 0 0 [] = true := by decide
/-- R87: MASK 64 is all ones. -/
theorem test_mask_64 : shows (send (holding 0 0) 0x90000800 0) (wrote 0xFFFFFFFFFFFFFFFF) 0 0 [] = true := by decide
/-- S3, after the first pull: the register holds 0xE5, the content is 0x05. -/
theorem test_rdbuf : shows (send (holding 5 0xE5) 0xA0000000 0) (wrote 5) 5 5 [] = true := by decide
/-- S1, last command. -/
theorem test_rdavl : shows (send (holding 8 0xE5) 0xB0000000 0) (wrote 8) 8 0xE5 [] = true := by decide
/-- V-MIX-1, first command. -/
theorem test_decU : shows (send (fed [0x12, 0x34]) 0xC000008C 0) (value .u8 2) 12 0x341 [] = true := by decide
/-- V-UF-2, second command: no top-up refill. -/
theorem test_decU_underflow : leaves (send { holding 4 0xB with input := [0xCD] } 0xC0000100 0) 6 [0xCD] = true := by
  decide
/-- R101: the top four bits of 0xE3 (EI-1's byte) are −2 in an int4_be. -/
theorem test_decI : shows (send (fed [0xE3]) 0xC0000081 0) (value .i8 0xFE) 4 3 [] = true := by decide
/-- S9. -/
theorem test_decF :
    shows (send (fed [0xDB, 0x0F, 0x49, 0x40]) 0xC0000016 0) (value .f32 0x40490FDB) 0 0 [] = true := by decide
/-- EOI-3. -/
theorem test_decD_end :
    shows (send (fed [1, 2, 3, 4, 5, 6, 7]) 0xC000001B 0) ⟨.raised .endOfInput, none, 7⟩ 0 0 [] = true ∧
    leaves (send (fed [1, 2, 3, 4, 5, 6, 7]) 0xC000001B 0) 4 [] = true := by decide
/-- R113, R115: eight bytes, first byte on top; the ninth stays. -/
theorem test_decD : leaves (send (fed [1, 2, 3, 4, 5, 6, 7, 8, 9]) 0xC000001B 0) 0 [9] = true ∧
    shows (send (fed [1, 2, 3, 4, 5, 6, 7, 8, 9]) 0xC000001B 0) (value .f64 0x0102030405060708) 0 0 [] = true := by
  decide
/-- V-C3, first command. -/
theorem test_encU : shows (send (holding 0 0) 0xD000020C 0x1234) (wrote 2) 0 0 [0x34, 0x12] = true := by decide
/-- EX-4. -/
theorem test_encU_width : shows (send (holding 0 0) 0xD0000820 1) (refusal .unsupportedWidth) 0 0 [] = true := by decide
/-- EI-1, first command. -/
theorem test_encI : shows (send (holding 0 0) 0xD0000081 0xFFFFFFFFFFFFFFFE) (wrote 0) 4 0xE [] = true := by decide
/-- V-C3, fourth command. -/
theorem test_encF :
    shows (send (holding 0 0) 0xD0000016 0x40490FDB) (wrote 4) 0 0 [0xDB, 0x0F, 0x49, 0x40] = true := by decide
/-- EX-1. -/
theorem test_encF_misaligned :
    shows (send (holding 4 1) 0xD0000012 0x40490FDB) (refusal .misalignedFloat) 4 1 [] = true := by decide
/-- EX-3. -/
theorem test_encD_full : shows (send (holding 8 1) 0xD000001B 1) (refusal .capacity) 8 1 [] = true := by decide
/-- R29, R120: a double, most significant byte first. -/
theorem test_encD : shows (send (holding 0 0) 0xD000001B 0x400921FB54442D18) (wrote 8) 0 0
    [0x40, 0x09, 0x21, 0xFB, 0x54, 0x44, 0x2D, 0x18] = true := by decide
/-- EF-1, second command. -/
theorem test_flushBe : shows (send (holding 3 5) 0xE0000000 0) (wrote 1) 0 0 [0xA0] = true := by decide
/-- EF-1, seventh command. -/
theorem test_flushBe_two : shows (send (holding 12 0xABC) 0xE0000000 0) (wrote 2) 0 0 [0xAB, 0xC0] = true := by decide
/-- EF-1, fourth command. -/
theorem test_flushLe : shows (send (holding 3 5) 0xE0000004 0) (wrote 1) 0 0 [0x05] = true := by decide
/-- R130, R148: RESET under a latched fault. -/
theorem test_reset : shows (send { holding 5 0xE5 with fault := 4 } 0xF0000000 7) done 0 0 [] = true ∧
    leaves (send { holding 5 0xE5 with fault := 4, input := [1] } 0xF0000000 7) 0 [1] = true := by decide
/-- EOI-1, second command: FAULTED. -/
theorem test_faulted : shows (send { holding 0 0 with fault := 4 } 0x70000000 0) ⟨.faulted, none, 4⟩ 0 0 [] = true := by
  decide
/-- R143. -/
theorem test_illegal :
    shows (send (holding 4 9) 0 0) (refusal .illegalCommand) 4 9 [] = true ∧ leaves (send (holding 4 9) 0 0) 7 [] = true :=
  by decide
/-- R144: a word that is RESET's opcode with a reserved bit set is no way out of a fault. -/
theorem test_faulted_near_reset :
    shows (send { holding 0 0 with fault := 4 } 0xF0000001 0) ⟨.faulted, none, 4⟩ 0 0 [] = true := by decide

/-! ## Values -/

/-- R104, R105: −2 as an I8, its 64-bit word, and the binary32 pattern of S9 as 13176795 · 2^−22. -/
theorem test_value : Value.number ⟨.i8, 0xFE⟩ = .int (-2) ∧ Value.raw64 ⟨.i8, 0xFE⟩ = 0xFFFFFFFFFFFFFFFE ∧
    Value.number ⟨.f32, 0x40490FDB⟩ = .float (.finite false 13176795 (-22)) := by decide

/-- R151: the clean end of EOI-2, and an end inside a record. -/
theorem test_classifyEnd : classifyEnd true 0 = .cleanEnd ∧ classifyEnd true 1 = .hardError ∧
    classifyEnd false 0 = .hardError := by decide

/-! ## Witnesses: what each statement with hypotheses is about -/

theorem witness_DecodeOfEncode : (Instr.mask 64).wellFormed = true ∧ (Instr.pushvBe 127 1).wellFormed = true := by decide

theorem witness_EncodeOfDecode : decode ⟨0x90000800, 7⟩ = .ok (.mask 64) ∧
    decode ⟨0xD0000FFF, 7⟩ = .ok (.encD ⟨127, 3, .little⟩ 7) := by decide

theorem witness_ReservedEncodingsAreIllegal :
    (State.reset.present ⟨0x90000820, 0⟩).commands = [⟨0x90000820, 0⟩] ∧ State.reset.fault = 0 ∧
    ReservedEncoding 0x90000820 := by decide

theorem witness_CheckTdIsR44 : LegalTd .uint ⟨64, 3, .big⟩ ∧ LegalTd .int ⟨8, 0, .little⟩ ∧
    LegalTd .float ⟨0, 2, .big⟩ ∧ LegalTd .double ⟨0, 3, .little⟩ ∧ ¬ LegalTd .uint ⟨65, 3, .big⟩ ∧
    ¬ LegalTd .int ⟨9, 0, .big⟩ ∧ ¬ LegalTd .float ⟨0, 3, .big⟩ ∧ ¬ LegalTd .double ⟨1, 3, .big⟩ := by decide

/-- A byte boundary at both ends, and one bit off it. -/
theorem witness_FloatsNeedByteAlignment : LegalTd .float ⟨0, 2, .big⟩ ∧ LegalTd .double ⟨0, 3, .little⟩ ∧
    (holding 0 0).buf.avail % 8 = 0 ∧ (holding 64 0).buf.avail % 8 = 0 ∧ (holding 63 0).buf.avail % 8 ≠ 0 := by decide

theorem witness_DescriptorTextRoundTrip : (FieldType.uint 64 .little .c64).wellFormed = true ∧
    (FieldType.int 1 .big .c64).wellFormed = true := by decide

theorem witness_AssemblerPicksRow : (FieldType.double .little).wellFormed = true ∧
    (FieldType.int 8 .big .c8).wellFormed = true := by decide

theorem witness_StepRunsDecodedCommand :
    decode ⟨0x50000000, 3⟩ = .ok .pullb ∧ (State.reset.present ⟨0x50000000, 3⟩).commands = [⟨0x50000000, 3⟩] ∧
    (State.reset.present ⟨0x50000000, 3⟩).fault = 0 := by decide

/-- The other disjunct: RESET while a fault is latched. -/
theorem witness_StepRunsDecodedCommand_reset :
    decode ⟨0xF0000000, 3⟩ = .ok .reset ∧ ({ State.reset with fault := 7 }.present ⟨0xF0000000, 3⟩).fault = 7 ∧
    (({ State.reset with fault := 7 }.present ⟨0xF0000000, 3⟩).commands = [⟨0xF0000000, 3⟩]) := by decide

/-- The three cases of R47, each on a state with a command. -/
theorem witness_StepFollowsR47 :
    (State.reset.present ⟨0, 0⟩).commands = [⟨0, 0⟩] ∧ decode ⟨0, 0⟩ = .error .reservedOpcode ∧
    decode ⟨0x70000000, 0⟩ = .ok .qempty ∧ (({ State.reset with fault := 1 }).fault ≠ 0) := by decide

theorem witness_IdleHoldsState : State.reset.commands = [] := by decide

theorem witness_OneResponsePerCommand : (State.reset.present ⟨0, 0⟩).commands = [⟨0, 0⟩] := by decide

theorem witness_StepKeepsInvariant :
    ∃ t, (holding 64 1).Inv ∧ step ((holding 64 1).present ⟨0x10000001, 0⟩) = .next t := ⟨_, by decide, rfl⟩

/-- Two different states that are observably the same. -/
theorem witness_DeadBitsUnobservable :
    (holding 4 0xF3).SameObservably (holding 4 0x03) ∧ holding 4 0xF3 ≠ holding 4 0x03 := by decide

theorem witness_FaultsArePrecise : ∃ t r, step ((holding 60 0).present ⟨0x300000A0, 1⟩) = .next t ∧
    t.responses = (holding 60 0).responses ++ [r] ∧ r.status = .raised .capacity := ⟨_, _, rfl, rfl, rfl⟩

/-- The END_OF_INPUT clause, at the longest stream that is too short. -/
theorem witness_FaultsArePrecise_end :
    ∃ t r, step ((fed [1, 2, 3, 4, 5, 6, 7]).present ⟨0xC000001B, 0⟩) = .next t ∧
      t.responses = [] ++ [r] ∧ r.status = .raised .endOfInput := ⟨_, _, rfl, rfl, rfl⟩

theorem witness_PriorityIsR146 : (State.reset.present ⟨0x40000000, 0⟩).commands = [⟨0x40000000, 0⟩] := by decide

theorem witness_FaultIsSticky : (({ State.reset with fault := 3 }.present ⟨0xF0000001, 0⟩).fault ≠ 0) ∧
    1 ≤ ({ State.reset with fault := 3 }.present ⟨0xF0000001, 0⟩).commands.length ∧
    ∀ c ∈ ({ State.reset with fault := 3 }.present ⟨0xF0000001, 0⟩).commands, c.cw ≠ 0xF0000000 := by decide

theorem witness_OnlyResetClearsFault :
    ({ holding 5 1 with fault := 3 }.present ⟨0xF0000000, 9⟩).commands = [⟨0xF0000000, 9⟩] ∧
    ({ holding 5 1 with fault := 3 }.present ⟨0xF0000001, 9⟩).commands = [⟨0xF0000001, 9⟩] ∧
    ({ holding 5 1 with fault := 3 }.present ⟨0xF0000000, 9⟩).fault ≠ 0 := by decide

theorem witness_OutputOnlyAppended : ∃ t, (holding 64 1).buf.avail ≤ 64 ∧ exec .drainBe (holding 64 1) = .next t :=
  ⟨_, by decide, rfl⟩

theorem witness_InputOnlyReadByDecode : ∃ t, exec (.decU ⟨3, 0, .big⟩) (fed [0xA5, 1]) = .next t ∧
    t.input ≠ (fed [0xA5, 1]).input := ⟨_, rfl, by decide⟩

/-- The other outcome: IN too short. -/
theorem witness_InputOnlyReadByDecode_end : ∃ t, exec (.decU ⟨9, 1, .big⟩) (fed [0xA5]) = .next t ∧
    t.input ≠ (fed [0xA5]).input := ⟨_, rfl, by decide⟩

theorem witness_UnusedDataIgnored : decode ⟨0x70000000, 5⟩ = .ok .qempty ∧ Instr.readsData .qempty = false := by decide

/-- The clauses of PUSHV and ENC: words that agree in the low `n` bits, at `n` = 3 and at `n` = 64. -/
theorem witness_UnusedDataIgnored_data : (7 : Word).toNat % 2 ^ (3 : BitVec 7).toNat = (0xFF : Word).toNat % 2 ^ 3 ∧
    (5 : Word).toNat % 2 ^ requestWidth .uint ⟨3, 0, .big⟩ = (0xFD : Word).toNat % 2 ^ 3 ∧
    (9 : Word).toNat % 2 ^ requestWidth .double ⟨0, 3, .big⟩ = (9 : Word).toNat % 2 ^ 64 := by decide

theorem witness_PushByteResult : (holding 56 0).buf.avail + 8 ≤ 64 := by decide

theorem witness_PushValueResult : 1 ≤ (64 : BitVec 7).toNat ∧ (64 : BitVec 7).toNat + (holding 0 3).buf.avail ≤ 64 ∧
    1 ≤ (1 : BitVec 7).toNat ∧ (1 : BitVec 7).toNat + (holding 63 3).buf.avail ≤ 64 := by decide

/-- Width 0; the widths 1 (no bit free), 5 (4 free), 65 and 127; PUSHB with 7 bits free. -/
theorem witness_RefusedPushes : (0 : BitVec 7).toNat = 0 ∧
    (1 ≤ (1 : BitVec 7).toNat ∧ ((1 : BitVec 7).toNat : Int) > 64 - ((holding 64 0).buf.avail : Int)) ∧
    (1 ≤ (5 : BitVec 7).toNat ∧ ((5 : BitVec 7).toNat : Int) > 64 - ((holding 60 0).buf.avail : Int)) ∧
    (1 ≤ (65 : BitVec 7).toNat ∧ ((65 : BitVec 7).toNat : Int) > 64 - ((holding 0 0).buf.avail : Int)) ∧
    57 ≤ (holding 57 0).buf.avail ∧
    (LegalTd .float ⟨0, 2, .big⟩ ∧ AlignedFor .float (holding 40 0).buf ∧
      (requestWidth .float ⟨0, 2, .big⟩ : Int) > 64 - ((holding 40 0).buf.avail : Int)) := by decide

/-- The ENC clause of the capacity law, at exactly the free room. -/
theorem witness_CapacityLaw : LegalTd .double ⟨0, 3, .big⟩ ∧ AlignedFor .double (holding 0 0).buf ∧
    (requestWidth .double ⟨0, 3, .big⟩ : Int) ≤ 64 - ((holding 0 0).buf.avail : Int) := by decide

theorem witness_PushesAssociate : ∃ s1 s2 s3, 1 ≤ (3 : BitVec 7).toNat ∧ 1 ≤ (4 : BitVec 7).toNat ∧
    (7 : BitVec 7).toNat = (3 : BitVec 7).toNat + (4 : BitVec 7).toNat ∧
    (holding 57 1).buf.avail + (7 : BitVec 7).toNat ≤ 64 ∧ (7 : Word).toNat < 2 ^ (3 : BitVec 7).toNat ∧
    (2 : Word).toNat < 2 ^ (4 : BitVec 7).toNat ∧ exec (.pushv .big 3 7) (holding 57 1) = .next s1 ∧
    exec (.pushv .big 4 2) s1 = .next s2 ∧ exec (.pushv .big 7 0x72) (holding 57 1) = .next s3 :=
  ⟨_, _, _, by decide, by decide, by decide, by decide, by decide, by decide, rfl, rfl, rfl⟩

theorem witness_PullValueResult :
    (LegalTd .uint ⟨64, 3, .big⟩ ∧ AlignedFor .uint (holding 64 1).buf ∧
      requestWidth .uint ⟨64, 3, .big⟩ ≤ (holding 64 1).buf.avail) ∧
    (LegalTd .int ⟨1, 0, .little⟩ ∧ AlignedFor .int (holding 1 1).buf ∧
      requestWidth .int ⟨1, 0, .little⟩ ≤ (holding 1 1).buf.avail) ∧
    (LegalTd .float ⟨0, 2, .big⟩ ∧ AlignedFor .float (holding 32 1).buf ∧
      requestWidth .float ⟨0, 2, .big⟩ ≤ (holding 32 1).buf.avail) ∧
    (LegalTd .double ⟨0, 3, .little⟩ ∧ AlignedFor .double (holding 64 1).buf ∧
      requestWidth .double ⟨0, 3, .little⟩ ≤ (holding 64 1).buf.avail) ∧
    (holding 56 1).buf.avail < requestWidth .double ⟨0, 3, .little⟩ := by decide

/-- PULLB and DRAIN: a byte and eight; nothing, and a partial byte. -/
theorem witness_PullByteResult : (0 < (holding 8 1).buf.avail ∧ (holding 8 1).buf.avail % 8 = 0) ∧
    (holding 0 0).buf.avail = 0 ∧ (holding 63 0).buf.avail % 8 ≠ 0 := by decide

theorem witness_DrainResult : (0 < (holding 64 1).buf.avail ∧ (holding 64 1).buf.avail % 8 = 0) ∧
    (holding 0 0).buf.avail = 0 ∧ (holding 7 0).buf.avail % 8 ≠ 0 := by decide

/-- Two fields that fill the buffer. -/
theorem witness_FirstInFirstOut : ∃ (s : State) (fs : List (BitVec 7 × Word)), fs ≠ [] ∧ s.fault = 0 ∧
    s.buf.avail = 0 ∧ (∀ f ∈ fs, 1 ≤ f.1.toNat) ∧ (fs.map fun f => f.1.toNat).sum ≤ 64 ∧
    s.commands = fs.map (fun f => encode (.pushv .little f.1 f.2)) ++
      fs.map (fun f => encode (.pullv .uint ⟨f.1, 3, .little⟩)) :=
  ⟨{ State.reset with commands := [encode (.pushvLe 3 7), encode (.pushvLe 61 1), encode (.pullvU ⟨3, 3, .little⟩),
      encode (.pullvU ⟨61, 3, .little⟩)] }, [(3, 7), (61, 1)], by decide, rfl, rfl,
    by intro f hf; simp only [List.mem_cons, List.not_mem_nil, or_false] at hf; rcases hf with rfl | rfl <;> decide,
    Nat.le_of_ble_eq_true rfl, rfl⟩

theorem witness_QueryResult : (64 : BitVec 7).toNat ≤ 64 ∧ (holding 64 0).buf.avail ≤ 64 := by decide

theorem witness_ResetValues :
    ({ holding 5 1 with fault := 7 }.present ⟨0xF0000000, 9⟩).commands = [⟨0xF0000000, 9⟩] := by decide

theorem witness_DecodeRefillResult :
    (LegalTd .uint ⟨3, 0, .big⟩ ∧ (fed [1]).buf.avail = 0 ∧ 2 ^ (0 : BitVec 2).toNat ≤ (fed [1]).input.length) ∧
    (LegalTd .int ⟨9, 1, .little⟩ ∧ 2 ^ (1 : BitVec 2).toNat ≤ (fed [1, 2, 3]).input.length) ∧
    (LegalTd .float ⟨0, 2, .big⟩ ∧ 2 ^ (2 : BitVec 2).toNat ≤ (fed [1, 2, 3, 4]).input.length) ∧
    (LegalTd .double ⟨0, 3, .big⟩ ∧ 2 ^ (3 : BitVec 2).toNat ≤ (fed [1, 2, 3, 4, 5, 6, 7, 8]).input.length) := by decide

/-- Enough bits staged, and one too few; a Double finds a whole number of bytes. -/
theorem witness_DecodeStagedResult :
    (LegalTd .uint ⟨5, 0, .big⟩ ∧ AlignedFor .uint (holding 5 1).buf ∧ 0 < (holding 5 1).buf.avail ∧
      requestWidth .uint ⟨5, 0, .big⟩ ≤ (holding 5 1).buf.avail) ∧
    (LegalTd .double ⟨0, 3, .big⟩ ∧ AlignedFor .double (holding 56 1).buf ∧ 0 < (holding 56 1).buf.avail ∧
      (holding 56 1).buf.avail < requestWidth .double ⟨0, 3, .big⟩) := by decide

theorem witness_EndOfInputResult :
    (LegalTd .uint ⟨1, 0, .big⟩ ∧ (fed []).buf.avail = 0 ∧ (fed []).input.length < 2 ^ (0 : BitVec 2).toNat) ∧
    (LegalTd .double ⟨0, 3, .big⟩ ∧ (fed [1, 2, 3, 4, 5, 6, 7]).input.length < 2 ^ (3 : BitVec 2).toNat) ∧
    (holding 1 1).buf.avail ≠ 0 := by decide

/-- An ENC that lands on a byte boundary, one that does not, and the two floating kinds. -/
theorem witness_EncodeResult :
    (LegalTd .uint ⟨4, 0, .big⟩ ∧ AlignedFor .uint (holding 60 1).buf ∧
      (holding 60 1).buf.avail + requestWidth .uint ⟨4, 0, .big⟩ ≤ 64) ∧
    (LegalTd .int ⟨1, 3, .little⟩ ∧ AlignedFor .int (holding 0 1).buf ∧
      (holding 0 1).buf.avail + requestWidth .int ⟨1, 3, .little⟩ ≤ 64) ∧
    (LegalTd .float ⟨0, 2, .big⟩ ∧ AlignedFor .float (holding 32 1).buf ∧
      (holding 32 1).buf.avail + requestWidth .float ⟨0, 2, .big⟩ ≤ 64) ∧
    (LegalTd .double ⟨0, 3, .big⟩ ∧ AlignedFor .double (holding 0 1).buf ∧
      (holding 0 1).buf.avail + requestWidth .double ⟨0, 3, .big⟩ ≤ 64) := by decide

theorem witness_FlushResult : (holding 0 1).buf.avail ≤ 64 ∧ (holding 57 1).buf.avail ≤ 64 := by decide

theorem witness_EncodeIsPushThenDrain : ∃ s1 s2 s3, LegalTd .uint ⟨4, 0, .little⟩ ∧ AlignedFor .uint (holding 4 9).buf ∧
    (holding 4 9).buf.avail + requestWidth .uint ⟨4, 0, .little⟩ ≤ 64 ∧
    (4 : BitVec 7).toNat = requestWidth .uint ⟨4, 0, .little⟩ ∧
    exec (.enc .uint ⟨4, 0, .little⟩ 0xA) (holding 4 9) = .next s1 ∧
    exec (.pushv .little 4 0xA) (holding 4 9) = .next s2 ∧ exec (.drain .little) s2 = .next s3 :=
  ⟨_, _, _, by decide, by decide, by decide, by decide, rfl, rfl, rfl⟩

theorem witness_FastPathIsByteOrderWrite :
    (LegalTd .uint ⟨16, 1, .little⟩ ∧ requestWidth .uint ⟨16, 1, .little⟩ = 8 * 2 ^ (1 : BitVec 2).toNat) ∧
    (LegalTd .double ⟨0, 3, .big⟩ ∧ requestWidth .double ⟨0, 3, .big⟩ = 8 * 2 ^ (3 : BitVec 2).toNat) ∧
    (holding 0 0xFF).buf.avail = 0 := by decide

/-- A record of 12 bits, its orders mixed. -/
theorem witness_RecordLength :
    ∃ t, runProgram (State.powerOn Config.specSetting [] (encodeProgram [⟨.uint 4 .big .c8, 0xA⟩, ⟨.int 8 .little .c8, 1⟩]
      .big)) = .next t ∧ t.fault = 0 ∧ t.buf.avail = 0 ∧
    ∀ f ∈ [RecordField.mk (.uint 4 .big .c8) 0xA, ⟨.int 8 .little .c8, 1⟩], f.typ.wellFormed = true :=
  ⟨_, rfl, by decide, by decide, by decide⟩

theorem witness_RecordLayout :
    ∃ t, runProgram (State.powerOn Config.specSetting [] (encodeProgram [⟨.uint 4 .big .c8, 0xA⟩, ⟨.int 8 .big .c8, 1⟩]
      .big)) = .next t ∧ t.fault = 0 ∧
    ∀ f ∈ [RecordField.mk (.uint 4 .big .c8) 0xA, ⟨.int 8 .big .c8, 1⟩], f.typ.wellFormed = true ∧ f.typ.endian = .big :=
  ⟨_, rfl, by decide, by decide⟩

/-- Two groups of different orders, and a Float alone in its container. -/
theorem witness_TiledTemplateRoundTrips :
    ∀ g ∈ [(Endian.big, Container.c8, [RecordField.mk (.uint 3 .big .c8) 5, ⟨.int 5 .big .c8, 9⟩]),
        (.little, .c16, [⟨.uint 16 .little .c16, 0x1234⟩]), (.little, .c32, [⟨.float .little, 0x40490FDB⟩])],
      tilesContainer g.1 g.2.1 (g.2.2.map RecordField.typ) = true := by decide

/-- The ends of the range, at widths 1 and 64. -/
theorem witness_SignedValuesSurvive :
    (1 ≤ 1 ∧ 1 ≤ 64 ∧ -(2 ^ (1 - 1) : Int) ≤ -1 ∧ (-1 : Int) < 2 ^ (1 - 1)) ∧
    (1 ≤ 64 ∧ -(2 ^ (64 - 1) : Int) ≤ 2 ^ 63 - 1 ∧ (2 ^ 63 - 1 : Int) < 2 ^ (64 - 1)) := by decide

end Sys2Proof.Tests
end

section
/-! PROOF. One rule per thing a step can do (spec/30_encoding.md R47), and the case split of the command set into its
families, which every proof over all commands uses. -/

namespace Sys2Proof.Proofs

open Sys2Proof.Machine Sys2Proof.Laws

/-! ## The step, case by case -/

section
variable {s : State} {c : Command} {rest : List Command}

theorem step_idle (h : s.commands = []) : step s = .next s := by
  simp [step, fetch, h]

theorem step_refused (h : s.commands = c :: rest) (hf : s.fault ≠ 0) (hw : c.cw ≠ resetWord) :
    step s = .next ((s.setCommands rest).respond .faulted none (s.fault.setWidth 64)) := by
  have hfetch : fetch s = .answered ((s.setCommands rest).respond .faulted none (s.fault.setWidth 64)) := by
    unfold fetch
    rw [h]
    exact if_pos ⟨hf, hw⟩
  rw [step, hfetch]

theorem step_illegal (h : s.commands = c :: rest) (hg : s.fault = 0 ∨ c.cw = resetWord) {x : DecodeError}
    (hd : decode c = .error x) : step s = .next ((s.setCommands rest).raise .illegalCommand 0) := by
  have hn : ¬ (s.fault ≠ 0 ∧ c.cw ≠ resetWord) := fun ⟨hf, hw⟩ => hg.elim hf hw
  simp only [step, fetch, h, setCommands_fault, if_neg hn, hd]

theorem step_run (h : s.commands = c :: rest) (hg : s.fault = 0 ∨ c.cw = resetWord) {i : Instr}
    (hd : decode c = .ok i) : step s = exec i (s.setCommands rest) := by
  have hn : ¬ (s.fault ≠ 0 ∧ c.cw ≠ resetWord) := fun ⟨hf, hw⟩ => hg.elim hf hw
  simp only [step, fetch, h, setCommands_fault, if_neg hn, hd]

end

/-! ## The command set, family by family -/

/-- What holds of every family of rows of R45, with any order or kind, holds of every command. -/
theorem instr_families {P : Instr → Prop}
    (pushb : ∀ e b, P (.pushb e b)) (pushv : ∀ e n d, P (.pushv e n d))
    (pullv : ∀ k t, P (.pullv k t)) (pullb : P .pullb) (drain : ∀ e, P (.drain e))
    (qempty : P .qempty) (qalign : P .qalign) (mask : ∀ n, P (.mask n)) (rdbuf : P .rdbuf) (rdavl : P .rdavl)
    (dec : ∀ k t, P (.dec k t)) (enc : ∀ k t d, P (.enc k t d)) (flush : ∀ e, P (.flush e)) (reset : P .reset)
    (i : Instr) : P i :=
  match i with
  | .pushbBe b => pushb .big b
  | .pushbLe b => pushb .little b
  | .pushvBe n d => pushv .big n d
  | .pushvLe n d => pushv .little n d
  | .pullvU t => pullv .uint t
  | .pullvI t => pullv .int t
  | .pullvF t => pullv .float t
  | .pullvD t => pullv .double t
  | .pullb => pullb
  | .drainBe => drain .big
  | .drainLe => drain .little
  | .qempty => qempty
  | .qalign => qalign
  | .mask n => mask n
  | .rdbuf => rdbuf
  | .rdavl => rdavl
  | .decU t => dec .uint t
  | .decI t => dec .int t
  | .decF t => dec .float t
  | .decD t => dec .double t
  | .encU t d => enc .uint t d
  | .encI t d => enc .int t d
  | .encF t d => enc .float t d
  | .encD t d => enc .double t d
  | .flushBe => flush .big
  | .flushLe => flush .little
  | .reset => reset

/-! ## Shared operations: what the later proofs need beside Laws/Ops -/

theorem container_bytes_le (c : Container) : c.bytes ≤ 8 := by cases c <;> decide

/-- The padding of FLUSH is pushed only off a byte boundary (R121). -/
theorem flushBuffer_cases (e : Endian) (s : State) :
    (s.buf.avail % 8 = 0 ∧ flushBuffer e s = s.drainOut e) ∨
    (s.buf.avail % 8 ≠ 0 ∧
      flushBuffer e s = (s.setBuf (s.buf.push e 0 (padBits s.buf.avail))).drainOut e) := by
  by_cases h : s.buf.avail % 8 = 0
  · have hp : ¬ padBits s.buf.avail > 0 := by unfold padBits; omega
    exact .inl ⟨h, by simp only [flushBuffer, if_neg hp]⟩
  · have hp : padBits s.buf.avail > 0 := by unfold padBits; omega
    exact .inr ⟨h, by simp only [flushBuffer, if_pos hp]⟩

end Sys2Proof.Proofs
end

section
/-! PROOF. Every command is answered: one response, no other command taken, the parameter kept, and the bounds of
spec/10_state.md R12 and R14 kept. -/

namespace Sys2Proof.Proofs

open Sys2Proof.Machine Sys2Proof.Laws

/-- What every execution of a command does to the ports and to the two bounded registers. -/
structure Answered (s t : State) : Prop where
  cfg      : t.cfg = s.cfg
  commands : t.commands = s.commands
  response : ∃ r, t.responses = s.responses ++ [r]
  avail    : s.buf.avail ≤ 64 → t.buf.avail ≤ 64
  fault    : s.fault.toNat ≤ 7 → t.fault.toNat ≤ 7

theorem Answered.inv {s t : State} (h : Answered s t) (hs : s.Inv) : t.Inv := ⟨h.avail hs.1, h.fault hs.2⟩

theorem faultCause_code_le (x : FaultCause) : x.code.toNat ≤ 7 := by cases x <;> decide

/-! ## How an answer is built -/

theorem respond_answered (s : State) (x : Status) (g : Option Tag) (d : Word) : Answered s (s.respond x g d) :=
  ⟨rfl, rfl, ⟨_, rfl⟩, id, id⟩

theorem raise_answered (s : State) (x : FaultCause) (d : Word) : Answered s (s.raise x d) :=
  ⟨rfl, rfl, ⟨_, rfl⟩, id, fun _ => faultCause_code_le x⟩

section
variable {s t : State}

theorem Answered.of_setBuf {b : BitBuffer} (h : Answered (s.setBuf b) t) (hb : s.buf.avail ≤ 64 → b.avail ≤ 64) :
    Answered s t :=
  ⟨h.cfg, h.commands, h.response, fun ha => h.avail (hb ha), h.fault⟩

theorem Answered.of_setInput {bs : List Byte} (h : Answered (s.setInput bs) t) : Answered s t :=
  ⟨h.cfg, h.commands, h.response, h.avail, h.fault⟩

theorem Answered.of_emit {bs : List Byte} (h : Answered (s.emit bs) t) : Answered s t :=
  ⟨h.cfg, h.commands, h.response, h.avail, h.fault⟩

theorem Answered.of_clear (h : Answered s.clear t) : Answered s t :=
  ⟨h.cfg, h.commands, h.response, fun _ => h.avail (by simp), fun _ => h.fault (by simp)⟩

end

/-! ## The command bodies -/

theorem pushByte_answered (e : Endian) (b : Byte) (s : State) : Answered s (pushByte e b s) := by
  rcases pushByte_cases e b s with ⟨-, h⟩ | ⟨hroom, h⟩ <;> rw [h]
  · exact raise_answered ..
  · exact (respond_answered ..).of_setBuf fun _ => by simpa using hroom

theorem pushValue_answered (e : Endian) (n : BitVec 7) (d : Word) (s : State) : Answered s (pushValue e n d s) := by
  rcases pushValue_cases e n d s with ⟨-, h⟩ | ⟨-, -, h⟩ | ⟨-, hroom, h⟩ <;> rw [h]
  · exact raise_answered ..
  · exact raise_answered ..
  · exact (respond_answered ..).of_setBuf fun _ => by simpa using hroom

theorem pullField_answered (s : State) (ft : FieldType) : Answered s (s.pullField ft) := by
  rcases pullField_cases s ft with ⟨-, h⟩ | ⟨-, h⟩ <;> rw [h]
  · exact raise_answered ..
  · exact (respond_answered ..).of_setBuf fun _ => by rw [extract_avail]; omega

theorem pullValue_answered (k : Kind) (t : TypeOpd) (s : State) : Answered s (pullValue k t s) := by
  rcases pullValue_cases k t s with ⟨x, -, h⟩ | ⟨ft, -, h⟩ <;> rw [h]
  · exact raise_answered ..
  · exact pullField_answered ..

theorem pullByte_answered (s : State) : Answered s (pullByte s) := by
  rcases pullByte_cases s with ⟨-, h⟩ | ⟨-, h⟩ <;> rw [h]
  · exact (respond_answered ..).of_setBuf fun _ => by simp only [BitBuffer.extractBe]; omega
  · exact respond_answered ..

theorem drainOut_answered (s : State) (e : Endian) : Answered s (s.drainOut e) := by
  rcases drainOut_cases s e with ⟨-, b, hb, h⟩ | ⟨-, h⟩ <;> rw [h]
  · exact (respond_answered ..).of_emit.of_setBuf fun _ => by omega
  · exact respond_answered ..

/-- A refill of an empty buffer brings at most 64 bits (R96, R111). -/
theorem refill_avail_le {s : State} (hempty : s.buf.avail = 0) (c : Container) (e : Endian) :
    (s.refill c.bytes e).buf.avail ≤ 64 := by
  have hbytes := container_bytes_le c
  rw [refill_buf, pushBytes_avail, List.length_take, hempty]
  omega

theorem decodeField_answered (k : Kind) (t : TypeOpd) (s : State) : Answered s (decodeField k t s) := by
  rcases decodeField_cases k t s with
    ⟨x, -, h⟩ | ⟨ft, -, ⟨-, -, h⟩ | ⟨hempty, -, h⟩ | ⟨-, h⟩⟩ <;> rw [h]
  · exact raise_answered ..
  · exact (raise_answered ..).of_setInput
  · exact (pullField_answered (s.refill _ _) ft).of_setInput.of_setBuf fun _ => refill_avail_le hempty _ _
  · exact pullField_answered ..

theorem encodeField_answered (k : Kind) (t : TypeOpd) (d : Word) (s : State) :
    Answered s (encodeField k t d s) := by
  rcases encodeField_cases k t d s with ⟨x, -, h⟩ | ⟨ft, -, ⟨-, h⟩ | ⟨hroom, h⟩⟩ <;> rw [h]
  · exact raise_answered ..
  · exact raise_answered ..
  · exact (drainOut_answered ..).of_setBuf fun _ => by simpa using hroom

theorem flushBuffer_answered (e : Endian) (s : State) : Answered s (flushBuffer e s) := by
  rcases flushBuffer_cases e s with ⟨-, h⟩ | ⟨-, h⟩ <;> rw [h]
  · exact drainOut_answered ..
  · -- 64 is a byte boundary, so the padding does not go past it
    refine (drainOut_answered ..).of_setBuf fun havail => ?_
    obtain ⟨hwhole, -, hlt⟩ := padBits_spec s.buf.avail
    rw [push_avail]
    omega

/-! ## Every command, every step -/

theorem exec_answered (i : Instr) (s : State) : ∃ t, exec i s = .next t ∧ Answered s t := by
  induction i using instr_families with
  | pushb e b => exact ⟨_, exec_pushb e b s, pushByte_answered e b s⟩
  | pushv e n d => exact ⟨_, exec_pushv e n d s, pushValue_answered e n d s⟩
  | pullv k t => exact ⟨_, exec_pullv k t s, pullValue_answered k t s⟩
  | pullb => exact ⟨_, rfl, pullByte_answered s⟩
  | drain e => exact ⟨_, exec_drain e s, drainOut_answered s e⟩
  | qempty => exact ⟨_, rfl, respond_answered ..⟩
  | qalign => exact ⟨_, rfl, respond_answered ..⟩
  | mask n => exact ⟨_, rfl, respond_answered ..⟩
  | rdbuf => exact ⟨_, rfl, respond_answered ..⟩
  | rdavl => exact ⟨_, rfl, respond_answered ..⟩
  | dec k t => exact ⟨_, exec_dec k t s, decodeField_answered k t s⟩
  | enc k t d => exact ⟨_, exec_enc k t d s, encodeField_answered k t d s⟩
  | flush e => exact ⟨_, exec_flush e s, flushBuffer_answered e s⟩
  | reset => exact ⟨_, rfl, (respond_answered ..).of_clear⟩

/-- A step with a command waiting takes it from the port and answers it. -/
theorem step_answered {s : State} {c : Command} {rest : List Command} (h : s.commands = c :: rest) :
    ∃ t, step s = .next t ∧ Answered (s.setCommands rest) t := by
  by_cases hg : s.fault = 0 ∨ c.cw = resetWord
  · cases hd : decode c with
    | error x => exact ⟨_, step_illegal h hg hd, raise_answered ..⟩
    | ok i => exact (step_run h hg hd).symm ▸ exec_answered i (s.setCommands rest)
  · obtain ⟨hf, hw⟩ := not_or.mp hg
    exact ⟨_, step_refused h hf hw, respond_answered ..⟩

/-! ## The statements -/

/-- Settles O17: with no command waiting nothing changes, and every answer keeps the two bounds. -/
theorem stepKeepsInvariant : Obligations.StepKeepsInvariant := by
  intro s t hs hstep
  cases hc : s.commands with
  | nil =>
    rw [step_idle hc] at hstep
    cases hstep
    exact hs
  | cons c rest =>
    obtain ⟨t', hstep', hans⟩ := step_answered hc
    cases hstep.symm.trans hstep'
    exact hans.inv hs

/-- Settles O15: a command that executes, an illegal word and a refusal are all answered in one way. -/
theorem oneResponsePerCommand : Obligations.OneResponsePerCommand := by
  intro s c rest hc
  obtain ⟨t, hstep, hans⟩ := step_answered hc
  obtain ⟨r, hr⟩ := hans.response
  exact ⟨t, r, hstep, hans.commands, hr, hans.cfg⟩

/-- Settles O16: what the host supplies touches neither bounded register. -/
theorem powerOnMeetsInvariant : Obligations.PowerOnMeetsInvariant :=
  have reset_inv : State.reset.Inv := by decide
  ⟨reset_inv, fun _ _ _ => reset_inv⟩

/-- RESET's word decodes whatever DATA holds (R40, R130). -/
theorem decode_resetWord (d : Word) : decode ⟨resetWord, d⟩ = .ok .reset := by
  have hword : resetWord = wordOf 0xF 0 := by decide
  simp [hword, decode, decodeN]

/-- Settles O37: the exact word of RESET runs whatever is latched. -/
theorem resetValues : Obligations.ResetValues := by
  refine ⟨fun _ _ _ => ⟨rfl, rfl, rfl, rfl⟩, fun s d rest hc => ?_, rfl, rfl⟩
  exact step_run hc (.inr rfl) (decode_resetWord d)

end Sys2Proof.Proofs
end

section
/-! PROOF. The dead bits of the accumulator are never observable (spec/10_state.md R13, R23): every operation takes
states that differ only there to states that differ only there. -/

namespace Sys2Proof.Proofs

open Sys2Proof.Machine Sys2Proof.Laws

/-! ## Buffers equal but for their dead bits -/

/-- The buffers of R23: the same count and the same content. -/
structure SameLive (b c : BitBuffer) : Prop where
  avail   : b.avail = c.avail
  content : b.content = c.content

theorem getLsbD_mask (n i : Nat) : (mask n).getLsbD i = (decide (i < 64) && decide (i < n)) := by
  rw [mask, BitVec.getLsbD_ofNat, Nat.testBit_two_pow_sub_one]

theorem getLsbD_content (b : BitBuffer) (i : Nat) :
    b.content.getLsbD i = (b.bits.getLsbD i && decide (i < b.avail)) := by
  rw [BitBuffer.content, BitVec.getLsbD_and, getLsbD_mask]
  by_cases h : i < 64
  · simp only [h, decide_true, Bool.true_and]
  · simp only [BitVec.getLsbD_of_ge b.bits i (by omega), Bool.false_and]

/-- The content is the bits below the count. -/
theorem sameLive_iff {b c : BitBuffer} :
    SameLive b c ↔ b.avail = c.avail ∧ ∀ i < b.avail, b.bits.getLsbD i = c.bits.getLsbD i := by
  constructor
  · rintro ⟨havail, hcontent⟩
    refine ⟨havail, fun i hi => ?_⟩
    have hbit := congrArg (BitVec.getLsbD · i) hcontent
    simpa [getLsbD_content, hi, ← havail] using hbit
  · rintro ⟨havail, hbits⟩
    refine ⟨havail, BitVec.eq_of_getLsbD_eq fun i _ => ?_⟩
    rw [getLsbD_content, getLsbD_content, ← havail]
    by_cases hi : i < b.avail
    · rw [hbits i hi]
    · simp [hi]

section
variable {b c : BitBuffer}

theorem push_sameLive (h : SameLive b c) (e : Endian) (v : Word) (n : Nat) :
    SameLive (b.push e v n) (c.push e v n) := by
  obtain ⟨havail, hbits⟩ := sameLive_iff.mp h
  refine sameLive_iff.mpr ⟨by simp [havail], fun i hi => ?_⟩
  rw [push_avail] at hi
  cases e with
  | big =>
    -- below `n` the pushed value, above it the live bits moved up
    simp only [BitBuffer.push, BitBuffer.pushBe, shl64, BitVec.getLsbD_or, BitVec.getLsbD_shiftLeft]
    by_cases hn : i < n
    · simp [hn]
    · rw [hbits (i - n) (by omega)]
  | little =>
    have hcontent : b.bits &&& mask b.avail = c.bits &&& mask c.avail := h.content
    simp only [BitBuffer.push, BitBuffer.pushLe]
    rw [hcontent, havail]

/-- A pull of no more than the count takes live bits only. -/
theorem extract_sameLive (h : SameLive b c) (e : Endian) {n : Nat} (hn : n ≤ b.avail) :
    (b.extract e n).1 = (c.extract e n).1 ∧ SameLive (b.extract e n).2 (c.extract e n).2 := by
  obtain ⟨havail, hbits⟩ := sameLive_iff.mp h
  rw [sameLive_iff, extract_avail, extract_avail, havail]
  refine ⟨BitVec.eq_of_getLsbD_eq fun i _ => ?_, rfl, fun i hi => ?_⟩
  · cases e with
    | big =>
      simp only [BitBuffer.extract, BitBuffer.extractBe, shr64, BitVec.getLsbD_and, BitVec.getLsbD_ushiftRight,
        getLsbD_mask, ← havail]
      by_cases hi : i < n
      · rw [hbits (b.avail - n + i) (by omega)]
      · simp [hi]
    | little =>
      simp only [BitBuffer.extract, BitBuffer.extractLe, BitVec.getLsbD_and, getLsbD_mask]
      by_cases hi : i < n
      · rw [hbits i (by omega)]
      · simp [hi]
  · cases e with
    | big => exact hbits i (by omega)
    | little =>
      simp only [BitBuffer.extract, BitBuffer.extractLe, shr64, BitVec.getLsbD_ushiftRight]
      exact hbits (n + i) (by omega)

theorem empty_sameLive (h : SameLive b c) : b.empty = c.empty := by simp only [BitBuffer.empty, h.avail]

theorem aligned_sameLive (h : SameLive b c) : b.aligned = c.aligned := by simp only [BitBuffer.aligned, h.avail]

theorem misaligned_sameLive (h : SameLive b c) : b.misaligned = c.misaligned := by
  simp only [BitBuffer.misaligned, h.avail]

theorem checkField_sameLive (h : SameLive b c) (k : Kind) (t : TypeOpd) : checkField k t b = checkField k t c := by
  rw [checkField, misaligned_sameLive h, checkField]

end

theorem drainLoop_sameLive (e : Endian) (k : Nat) {b c : BitBuffer} (h : SameLive b c) :
    (b.drainLoop e k).1 = (c.drainLoop e k).1 ∧ SameLive (b.drainLoop e k).2 (c.drainLoop e k).2 := by
  induction k generalizing b c with
  | zero => exact ⟨rfl, h⟩
  | succ k ih =>
    simp only [BitBuffer.drainLoop, ← aligned_sameLive h]
    split
    next haligned =>
      obtain ⟨hpos, hwhole⟩ := (aligned_iff b).mp haligned
      obtain ⟨hbyte, hrest⟩ := extract_sameLive h e (n := 8) (by omega)
      obtain ⟨hbytes, hleft⟩ := ih hrest
      exact ⟨by rw [hbyte, hbytes], hleft⟩
    next => exact ⟨rfl, h⟩

theorem drain_sameLive (e : Endian) {b c : BitBuffer} (h : SameLive b c) :
    (b.drain e).1 = (c.drain e).1 ∧ SameLive (b.drain e).2 (c.drain e).2 := by
  simp only [BitBuffer.drain, ← h.avail]
  exact drainLoop_sameLive e _ h

theorem pushBytes_sameLive (e : Endian) (bs : List Byte) {b c : BitBuffer} (h : SameLive b c) :
    SameLive (b.pushBytes e bs) (c.pushBytes e bs) := by
  induction bs generalizing b c with
  | nil => exact h
  | cons x xs ih => exact ih (push_sameLive h e (x.setWidth 64) 8)

/-! ## States equal but for their dead bits -/

/-- States that differ only in dead bits are one state with two buffers. -/
theorem sameObservably_iff {s t : State} :
    s.SameObservably t ↔ ∃ b, SameLive s.buf b ∧ t = s.setBuf b := by
  constructor
  · rintro ⟨havail, hcontent, hfault, hinput, houtput, hcommands, hresponses, hcfg⟩
    refine ⟨t.buf, ⟨havail, hcontent⟩, ?_⟩
    cases s; cases t
    simp_all [State.setBuf]
  · rintro ⟨b, ⟨havail, hcontent⟩, rfl⟩
    exact ⟨havail, hcontent, rfl, rfl, rfl, rfl, rfl, rfl⟩

theorem same_setBuf (s : State) {b : BitBuffer} (hb : SameLive s.buf b) : s.SameObservably (s.setBuf b) :=
  sameObservably_iff.mpr ⟨b, hb, rfl⟩

section
variable {s t : State}

theorem buf_sameLive (h : s.SameObservably t) : SameLive s.buf t.buf := by
  obtain ⟨b, hb, rfl⟩ := sameObservably_iff.mp h
  exact hb

theorem input_same (h : s.SameObservably t) : s.input = t.input := by
  obtain ⟨b, -, rfl⟩ := sameObservably_iff.mp h
  rfl

theorem cfg_same (h : s.SameObservably t) : s.cfg = t.cfg := by
  obtain ⟨b, -, rfl⟩ := sameObservably_iff.mp h
  rfl

/-! ## The updates of a state -/

theorem setBuf_same (h : s.SameObservably t) {b c : BitBuffer} (hb : SameLive b c) :
    (s.setBuf b).SameObservably (t.setBuf c) := by
  obtain ⟨-, -, rfl⟩ := sameObservably_iff.mp h
  exact same_setBuf (s.setBuf b) hb

theorem setInput_same (h : s.SameObservably t) (bs : List Byte) :
    (s.setInput bs).SameObservably (t.setInput bs) := by
  obtain ⟨b, hb, rfl⟩ := sameObservably_iff.mp h
  exact same_setBuf (s.setInput bs) hb

theorem setFault_same (h : s.SameObservably t) (f : BitVec 4) :
    (s.setFault f).SameObservably (t.setFault f) := by
  obtain ⟨b, hb, rfl⟩ := sameObservably_iff.mp h
  exact same_setBuf (s.setFault f) hb

theorem setCommands_same (h : s.SameObservably t) (cs : List Command) :
    (s.setCommands cs).SameObservably (t.setCommands cs) := by
  obtain ⟨b, hb, rfl⟩ := sameObservably_iff.mp h
  exact same_setBuf (s.setCommands cs) hb

theorem emit_same (h : s.SameObservably t) (bs : List Byte) : (s.emit bs).SameObservably (t.emit bs) := by
  obtain ⟨b, hb, rfl⟩ := sameObservably_iff.mp h
  exact same_setBuf (s.emit bs) hb

theorem respond_same (h : s.SameObservably t) (x : Status) (g : Option Tag) (d : Word) :
    (s.respond x g d).SameObservably (t.respond x g d) := by
  obtain ⟨b, hb, rfl⟩ := sameObservably_iff.mp h
  exact same_setBuf (s.respond x g d) hb

theorem raise_same (h : s.SameObservably t) (x : FaultCause) (d : Word) :
    (s.raise x d).SameObservably (t.raise x d) :=
  respond_same (setFault_same h x.code) (.raised x) none d

theorem clear_same (h : s.SameObservably t) : s.clear.SameObservably t.clear :=
  setFault_same (setBuf_same h ⟨rfl, rfl⟩) 0

theorem refill_same (h : s.SameObservably t) (k : Nat) (e : Endian) :
    (s.refill k e).SameObservably (t.refill k e) := by
  rw [State.refill, State.refill, ← input_same h]
  exact setInput_same (setBuf_same h (pushBytes_sameLive e _ (buf_sameLive h))) _

/-! ## The command bodies -/

theorem pushByte_same (h : s.SameObservably t) (e : Endian) (b : Byte) :
    (pushByte e b s).SameObservably (pushByte e b t) := by
  have hb := buf_sameLive h
  simp only [pushByte, ← hb.avail]
  split
  · exact raise_same h _ _
  · exact respond_same (setBuf_same h (push_sameLive hb e _ 8)) _ _ _

theorem pushValue_same (h : s.SameObservably t) (e : Endian) (n : BitVec 7) (d : Word) :
    (pushValue e n d s).SameObservably (pushValue e n d t) := by
  have hb := buf_sameLive h
  simp only [pushValue, ← hb.avail]
  split
  · exact raise_same h _ _
  · split
    · exact raise_same h _ _
    · exact respond_same (setBuf_same h (push_sameLive hb e d _)) _ _ _

theorem pullField_same (h : s.SameObservably t) (ft : FieldType) :
    (s.pullField ft).SameObservably (t.pullField ft) := by
  have hb := buf_sameLive h
  simp only [State.pullField, ← hb.avail, ← cfg_same h]
  split
  · exact raise_same h _ _
  · obtain ⟨hbits, hrest⟩ := extract_sameLive hb ft.endian (n := ft.numBits) (by omega)
    rw [← hbits]
    exact respond_same (setBuf_same h hrest) _ _ _

theorem pullValue_same (h : s.SameObservably t) (k : Kind) (td : TypeOpd) :
    (pullValue k td s).SameObservably (pullValue k td t) := by
  simp only [pullValue, ← checkField_sameLive (buf_sameLive h)]
  split
  · exact raise_same h _ _
  · exact pullField_same h _

theorem pullByte_same (h : s.SameObservably t) : (pullByte s).SameObservably (pullByte t) := by
  have hb := buf_sameLive h
  simp only [pullByte, ← aligned_sameLive hb]
  split
  next haligned =>
    obtain ⟨hpos, hwhole⟩ := (aligned_iff s.buf).mp haligned
    obtain ⟨hbyte, hrest⟩ := extract_sameLive hb .big (n := 8) (by omega)
    exact hbyte ▸ respond_same (setBuf_same h hrest) _ _ _
  next => exact respond_same h _ _ _

theorem drainOut_same (h : s.SameObservably t) (e : Endian) : (s.drainOut e).SameObservably (t.drainOut e) := by
  obtain ⟨hbytes, hleft⟩ := drain_sameLive e (buf_sameLive h)
  simp only [State.drainOut, ← hbytes]
  exact respond_same (emit_same (setBuf_same h hleft) _) _ _ _

theorem decodeField_same (h : s.SameObservably t) (k : Kind) (td : TypeOpd) :
    (decodeField k td s).SameObservably (decodeField k td t) := by
  have hb := buf_sameLive h
  simp only [decodeField, ← checkField_sameLive hb, ← empty_sameLive hb, ← input_same h]
  split
  · exact raise_same h _ _
  · split
    · split
      · exact raise_same (setInput_same h _) _ _
      · exact pullField_same (refill_same h _ _) _
    · exact pullField_same h _

theorem encodeField_same (h : s.SameObservably t) (k : Kind) (td : TypeOpd) (d : Word) :
    (encodeField k td d s).SameObservably (encodeField k td d t) := by
  have hb := buf_sameLive h
  simp only [encodeField, ← checkField_sameLive hb, ← hb.avail]
  split
  · exact raise_same h _ _
  · split
    · exact raise_same h _ _
    · exact drainOut_same (setBuf_same h (push_sameLive hb _ d _)) _

theorem flushBuffer_same (h : s.SameObservably t) (e : Endian) :
    (flushBuffer e s).SameObservably (flushBuffer e t) := by
  have hb := buf_sameLive h
  simp only [flushBuffer, ← hb.avail]
  split
  · exact drainOut_same (setBuf_same h (push_sameLive hb e 0 _)) e
  · exact drainOut_same h e

/-! ## Every command, every step, every run -/

theorem exec_same (h : s.SameObservably t) (i : Instr) :
    ∃ s' t', exec i s = .next s' ∧ exec i t = .next t' ∧ s'.SameObservably t' := by
  have hb := buf_sameLive h
  induction i using instr_families with
  | pushb e b => exact ⟨_, _, exec_pushb e b s, exec_pushb e b t, pushByte_same h e b⟩
  | pushv e n d => exact ⟨_, _, exec_pushv e n d s, exec_pushv e n d t, pushValue_same h e n d⟩
  | pullv k td => exact ⟨_, _, exec_pullv k td s, exec_pullv k td t, pullValue_same h k td⟩
  | pullb => exact ⟨_, _, rfl, rfl, pullByte_same h⟩
  | drain e => exact ⟨_, _, exec_drain e s, exec_drain e t, drainOut_same h e⟩
  | qempty => exact ⟨_, _, rfl, rfl, empty_sameLive hb ▸ respond_same h _ _ _⟩
  | qalign => exact ⟨_, _, rfl, rfl, aligned_sameLive hb ▸ respond_same h _ _ _⟩
  | mask n => exact ⟨_, _, rfl, rfl, respond_same h _ _ _⟩
  | rdbuf => exact ⟨_, _, rfl, rfl, hb.content ▸ respond_same h _ _ _⟩
  | rdavl => exact ⟨_, _, rfl, rfl, hb.avail ▸ respond_same h _ _ _⟩
  | dec k td => exact ⟨_, _, exec_dec k td s, exec_dec k td t, decodeField_same h k td⟩
  | enc k td d => exact ⟨_, _, exec_enc k td d s, exec_enc k td d t, encodeField_same h k td d⟩
  | flush e => exact ⟨_, _, exec_flush e s, exec_flush e t, flushBuffer_same h e⟩
  | reset => exact ⟨_, _, rfl, rfl, respond_same (clear_same h) _ _ _⟩

theorem step_same (h : s.SameObservably t) :
    ∃ s' t', step s = .next s' ∧ step t = .next t' ∧ s'.SameObservably t' := by
  obtain ⟨b, -, rfl⟩ := sameObservably_iff.mp h
  rcases step_cases s with
    ⟨hc, hs⟩ | ⟨c, rest, hc, hf, hw, hs⟩ | ⟨c, rest, x, hc, hg, hd, hs⟩ | ⟨c, rest, i, hc, hg, hd, hs⟩
  · exact ⟨_, _, hs, step_idle hc, h⟩
  · exact ⟨_, _, hs, step_refused hc hf hw, respond_same (setCommands_same h rest) _ _ _⟩
  · exact ⟨_, _, hs, step_illegal hc hg hd, raise_same (setCommands_same h rest) _ _⟩
  · rw [hs, step_run (s := s.setBuf b) hc hg hd]
    exact exec_same (setCommands_same h rest) i

end

/-! ## The statement -/

/-- Settles O18, by induction on the number of steps. -/
theorem deadBitsUnobservable : Obligations.DeadBitsUnobservable := by
  intro k
  induction k with
  | zero => exact fun s t h => ⟨s, t, run_zero s, run_zero t, h⟩
  | succ k ih =>
    intro s t h
    obtain ⟨s1, t1, hs, ht, h1⟩ := step_same h
    rw [run_succ k hs, run_succ k ht]
    exact ih s1 t1 h1

end Sys2Proof.Proofs
end

section
/-! PROOF. The field check that PULLV, DEC and ENC share (spec/30_encoding.md R44, spec/10_state.md R33): what the three
answer when it raises and when it passes. -/

namespace Sys2Proof.Proofs

open Sys2Proof.Machine Sys2Proof.Laws

/-! ## The check raises -/

section
variable {k : Kind} {t : TypeOpd} {s : State} {x : FaultCause}

theorem pullValue_of_checkField_error (h : checkField k t s.buf = .error x) : pullValue k t s = s.raise x 0 := by
  simp only [pullValue, h]

theorem decodeField_of_checkField_error (h : checkField k t s.buf = .error x) : decodeField k t s = s.raise x 0 := by
  simp only [decodeField, h]

theorem encodeField_of_checkField_error (h : checkField k t s.buf = .error x) (d : Word) :
    encodeField k t d s = s.raise x 0 := by
  simp only [encodeField, h]

/-- What the check raises is the answer of all three commands, and they do nothing else. -/
theorem exec_of_checkField_error (h : checkField k t s.buf = .error x) {d : Word} {i : Instr}
    (hi : i ∈ [Instr.pullv k t, .dec k t, .enc k t d]) : exec i s = .next (s.raise x 0) := by
  simp only [List.mem_cons, List.not_mem_nil, or_false] at hi
  rcases hi with rfl | rfl | rfl
  · rw [exec_pullv, pullValue_of_checkField_error h]
  · rw [exec_dec, decodeField_of_checkField_error h]
  · rw [exec_enc, encodeField_of_checkField_error h]

/-- A legal Float or Double off a byte boundary passes the TD check and fails the alignment check. -/
theorem checkField_misaligned (hl : LegalTd k t) (hk : k = .float ∨ k = .double) {b : BitBuffer}
    (hoff : b.avail % 8 ≠ 0) : checkField k t b = .error .misalignedFloat := by
  cases hc : checkField k t b with
  | error x =>
    rcases checkField_error hc with ⟨-, hint, -⟩ | ⟨-, hbad, -⟩ | ⟨rfl, -⟩
    · rcases hk with rfl | rfl <;> simp at hint
    · exact absurd hl hbad
    · rfl
  | ok ft =>
    obtain ⟨-, haligned, -⟩ := checkField_ok hc
    rcases hk with rfl | rfl <;> exact absurd haligned hoff

end

/-! ## The check passes -/

/-- `t` is `s` with one more response, whose status is one of `xs`. -/
def AnsweredIn (xs : List Status) (s t : State) : Prop :=
  ∃ r, t.responses = s.responses ++ [r] ∧ r.status ∈ xs

section
variable {xs ys : List Status} {s t : State}

theorem AnsweredIn.mono (h : AnsweredIn xs s t) (hsub : xs ⊆ ys) : AnsweredIn ys s t := by
  obtain ⟨r, hr, hx⟩ := h
  exact ⟨r, hr, hsub hx⟩

theorem AnsweredIn.of_responses_eq {s' : State} (h : AnsweredIn xs s' t) (hs : s'.responses = s.responses) :
    AnsweredIn xs s t := by
  obtain ⟨r, hr, hx⟩ := h
  exact ⟨r, hs ▸ hr, hx⟩

end

theorem respond_answeredIn (s : State) (x : Status) (g : Option Tag) (d : Word) :
    AnsweredIn [x] s (s.respond x g d) :=
  ⟨_, respond_responses .., by simp⟩

theorem raise_answeredIn (s : State) (x : FaultCause) (d : Word) : AnsweredIn [.raised x] s (s.raise x d) :=
  ⟨_, raise_responses .., by simp⟩

theorem pullField_answeredIn (s : State) (ft : FieldType) :
    AnsweredIn [.ok, .raised .underflow] s (s.pullField ft) := by
  rcases pullField_cases s ft with ⟨-, h⟩ | ⟨-, h⟩ <;> rw [h]
  · exact (raise_answeredIn ..).mono (by simp)
  · exact ((respond_answeredIn ..).of_responses_eq (setBuf_responses ..)).mono (by simp)

theorem drainOut_answeredIn (s : State) (e : Endian) : AnsweredIn [.ok] s (s.drainOut e) := by
  rcases drainOut_cases s e with ⟨-, b, -, h⟩ | ⟨-, h⟩ <;> rw [h]
  · exact (respond_answeredIn ..).of_responses_eq (by simp)
  · exact respond_answeredIn ..

section
variable {k : Kind} {t : TypeOpd} {s : State} {ft : FieldType}

theorem pullValue_answeredIn (h : checkField k t s.buf = .ok ft) :
    AnsweredIn [.ok, .raised .underflow] s (pullValue k t s) := by
  simp only [pullValue, h]
  exact pullField_answeredIn s ft

theorem decodeField_answeredIn (h : checkField k t s.buf = .ok ft) :
    AnsweredIn [.ok, .raised .underflow, .raised .endOfInput] s (decodeField k t s) := by
  rcases decodeField_cases k t s with
    ⟨x, hx, hd⟩ | ⟨ft', -, ⟨-, -, hd⟩ | ⟨-, -, hd⟩ | ⟨-, hd⟩⟩ <;> rw [hd]
  · cases h.symm.trans hx
  · exact ((raise_answeredIn ..).of_responses_eq (setInput_responses ..)).mono (by simp)
  · exact ((pullField_answeredIn ..).of_responses_eq (refill_responses ..)).mono (by simp)
  · exact (pullField_answeredIn ..).mono (by simp)

theorem encodeField_answeredIn (h : checkField k t s.buf = .ok ft) (d : Word) :
    AnsweredIn [.ok, .raised .capacity] s (encodeField k t d s) := by
  rcases encodeField_cases k t d s with ⟨x, hx, he⟩ | ⟨ft', -, ⟨-, he⟩ | ⟨-, he⟩⟩ <;> rw [he]
  · cases h.symm.trans hx
  · exact (raise_answeredIn ..).mono (by simp)
  · exact ((drainOut_answeredIn ..).of_responses_eq (setBuf_responses ..)).mono (by simp)

/-- Past the check, the three commands raise nothing but UNDERFLOW, END_OF_INPUT and CAPACITY. -/
theorem exec_of_checkField_ok (h : checkField k t s.buf = .ok ft) {d : Word} {i : Instr}
    (hi : i ∈ [Instr.pullv k t, .dec k t, .enc k t d]) :
    ∃ t', exec i s = .next t' ∧
      AnsweredIn [.ok, .raised .underflow, .raised .endOfInput, .raised .capacity] s t' := by
  simp only [List.mem_cons, List.not_mem_nil, or_false] at hi
  rcases hi with rfl | rfl | rfl
  · exact ⟨_, exec_pullv .., (pullValue_answeredIn h).mono (by simp)⟩
  · exact ⟨_, exec_dec .., (decodeField_answeredIn h).mono (by simp)⟩
  · exact ⟨_, exec_enc .., (encodeField_answeredIn h d).mono (by simp)⟩

end

/-! ## The statement -/

/-- Settles O8: on a legal Float or Double the field check is the alignment check, and no later check raises
MISALIGNED_FLOAT. -/
theorem floatsNeedByteAlignment : Obligations.FloatsNeedByteAlignment := by
  intro k t data s hk hl i hi
  refine ⟨fun hoff => exec_of_checkField_error (checkField_misaligned hl hk hoff) hi, fun hwhole => ?_⟩
  have haligned : AlignedFor k s.buf := by rcases hk with rfl | rfl <;> exact hwhole
  obtain ⟨ft, hcheck, -⟩ := checkField_legal hl haligned
  obtain ⟨t', hexec, r, hr, hstatus⟩ := exec_of_checkField_ok hcheck hi
  exact ⟨t', r, hexec, hr, fun hmis => by simp [hmis] at hstatus⟩

end Sys2Proof.Proofs
end

section
/-! PROOF. The two byte streams (spec/10_state.md R25, R35, R36): which commands leave them alone, what a drain
appends to OUT, and what a refill takes from IN. -/

namespace Sys2Proof.Proofs

open Sys2Proof.Machine Sys2Proof.Laws

/-! ## The bodies that touch neither stream -/

/-- `t` holds the streams of `s`. -/
structure SameStreams (s t : State) : Prop where
  input  : t.input = s.input
  output : t.output = s.output

theorem pushByte_sameStreams (e : Endian) (b : Byte) (s : State) : SameStreams s (pushByte e b s) := by
  rcases pushByte_cases e b s with ⟨-, h⟩ | ⟨-, h⟩ <;> rw [h] <;> exact ⟨rfl, rfl⟩

theorem pushValue_sameStreams (e : Endian) (n : BitVec 7) (d : Word) (s : State) :
    SameStreams s (pushValue e n d s) := by
  rcases pushValue_cases e n d s with ⟨-, h⟩ | ⟨-, -, h⟩ | ⟨-, -, h⟩ <;> rw [h] <;> exact ⟨rfl, rfl⟩

theorem pullField_sameStreams (s : State) (ft : FieldType) : SameStreams s (s.pullField ft) := by
  rcases pullField_cases s ft with ⟨-, h⟩ | ⟨-, h⟩ <;> rw [h] <;> exact ⟨rfl, rfl⟩

theorem pullValue_sameStreams (k : Kind) (t : TypeOpd) (s : State) : SameStreams s (pullValue k t s) := by
  rcases pullValue_cases k t s with ⟨x, -, h⟩ | ⟨ft, -, h⟩ <;> rw [h]
  · exact ⟨rfl, rfl⟩
  · exact pullField_sameStreams s ft

theorem pullByte_sameStreams (s : State) : SameStreams s (pullByte s) := by
  rcases pullByte_cases s with ⟨-, h⟩ | ⟨-, h⟩ <;> rw [h] <;> exact ⟨rfl, rfl⟩

/-! ## OUT -/

/-- `t` has 0 to 8 more bytes of OUT than `s`. -/
def Appended (s t : State) : Prop := ∃ bs, t.output = s.output ++ bs ∧ bs.length ≤ 8

theorem appended_of_output_eq {s t : State} (h : t.output = s.output) : Appended s t := ⟨[], by simp [h], by simp⟩

theorem Appended.of_setBuf {s t : State} {b : BitBuffer} (h : Appended (s.setBuf b) t) : Appended s t := h

/-- A buffer of at most 64 bits holds at most 8 whole bytes. -/
theorem drainOut_appended (s : State) (e : Endian) (havail : s.buf.avail ≤ 64) : Appended s (s.drainOut e) := by
  rcases drainOut_cases s e with ⟨-, b, -, h⟩ | ⟨-, h⟩ <;> rw [h]
  · refine ⟨bytesOf e (s.buf.avail / 8) s.buf.content.toNat, rfl, ?_⟩
    rw [bytesOf_length]
    omega
  · exact appended_of_output_eq rfl

theorem encodeField_appended (k : Kind) (t : TypeOpd) (d : Word) (s : State) : Appended s (encodeField k t d s) := by
  rcases encodeField_cases k t d s with ⟨x, -, h⟩ | ⟨ft, -, ⟨-, h⟩ | ⟨hroom, h⟩⟩ <;> rw [h]
  · exact appended_of_output_eq rfl
  · exact appended_of_output_eq rfl
  · exact (drainOut_appended _ _ (by simpa using hroom)).of_setBuf

theorem flushBuffer_appended (e : Endian) (s : State) (havail : s.buf.avail ≤ 64) :
    Appended s (flushBuffer e s) := by
  rcases flushBuffer_cases e s with ⟨-, h⟩ | ⟨-, h⟩ <;> rw [h]
  · exact drainOut_appended s e havail
  · obtain ⟨hwhole, -, hlt⟩ := padBits_spec s.buf.avail
    refine (drainOut_appended _ e ?_).of_setBuf
    rw [setBuf_buf, push_avail]
    omega

theorem decodeField_output (k : Kind) (t : TypeOpd) (s : State) : (decodeField k t s).output = s.output := by
  rcases decodeField_cases k t s with ⟨x, -, h⟩ | ⟨ft, -, ⟨-, -, h⟩ | ⟨-, -, h⟩ | ⟨-, h⟩⟩ <;> rw [h]
  · rfl
  · rfl
  · exact (pullField_sameStreams (s.refill _ _) ft).output
  · exact (pullField_sameStreams s ft).output

/-! ## IN -/

theorem drainOut_input (s : State) (e : Endian) : (s.drainOut e).input = s.input := rfl

theorem encodeField_input (k : Kind) (t : TypeOpd) (d : Word) (s : State) :
    (encodeField k t d s).input = s.input := by
  rcases encodeField_cases k t d s with ⟨x, -, h⟩ | ⟨ft, -, ⟨-, h⟩ | ⟨-, h⟩⟩ <;> rw [h]
  · rfl
  · rfl
  · exact drainOut_input (s.setBuf _) _

theorem flushBuffer_input (e : Endian) (s : State) : (flushBuffer e s).input = s.input := by
  rcases flushBuffer_cases e s with ⟨-, h⟩ | ⟨-, h⟩ <;> rw [h]
  · exact drainOut_input s e
  · exact drainOut_input (s.setBuf _) e

/-- From an empty buffer of `s`, `t` has read a container from the front of IN, or the whole of an IN that is too
short. -/
def InputRead (s t : State) : Prop :=
  s.buf.avail = 0 ∧
  ((∃ k ∈ [1, 2, 4, 8], k ≤ s.input.length ∧ t.input = s.input.drop k) ∨
    (t.input = [] ∧ t.fault = 4 ∧ t.buf = s.buf))

theorem container_bytes_mem (c : Container) : c.bytes ∈ [1, 2, 4, 8] := by cases c <;> decide

theorem decodeField_input (k : Kind) (t : TypeOpd) (s : State) :
    (decodeField k t s).input = s.input ∨ InputRead s (decodeField k t s) := by
  rcases decodeField_cases k t s with
    ⟨x, -, h⟩ | ⟨ft, -, ⟨hempty, -, h⟩ | ⟨hempty, hlen, h⟩ | ⟨-, h⟩⟩ <;> rw [h]
  · exact .inl rfl
  · exact .inr ⟨hempty, .inr ⟨rfl, rfl, rfl⟩⟩
  · have hpull := (pullField_sameStreams (s.refill ft.container.bytes ft.endian) ft).input
    exact .inr ⟨hempty, .inl ⟨_, container_bytes_mem ft.container, hlen, hpull⟩⟩
  · exact .inl (pullField_sameStreams s ft).input

/-! ## Every command -/

/-- What a command of row `m` may do to the two streams. -/
structure StreamEffect (m : Mnemonic) (s t : State) : Prop where
  output : s.buf.avail ≤ 64 → t.output = s.output ∨ m ∈ writesOut ∧ Appended s t
  input  : t.input = s.input ∨ m ∈ readsIn ∧ InputRead s t

section
variable {m : Mnemonic} {s t : State}

theorem SameStreams.effect (h : SameStreams s t) : StreamEffect m s t := ⟨fun _ => .inl h.output, .inl h.input⟩

theorem StreamEffect.of_write (hm : m ∈ writesOut) (hout : s.buf.avail ≤ 64 → Appended s t)
    (hin : t.input = s.input) : StreamEffect m s t :=
  ⟨fun havail => .inr ⟨hm, hout havail⟩, .inl hin⟩

theorem StreamEffect.of_read (hm : m ∈ readsIn) (hout : t.output = s.output)
    (hin : t.input = s.input ∨ InputRead s t) : StreamEffect m s t :=
  ⟨fun _ => .inl hout, hin.imp_right fun hread => ⟨hm, hread⟩⟩

end

theorem drain_mem_writesOut (e : Endian) : (Instr.drain e).mnemonic ∈ writesOut := by cases e <;> decide

theorem flush_mem_writesOut (e : Endian) : (Instr.flush e).mnemonic ∈ writesOut := by cases e <;> decide

theorem enc_mem_writesOut (k : Kind) (t : TypeOpd) (d : Word) : (Instr.enc k t d).mnemonic ∈ writesOut := by
  cases k <;> simp [Instr.enc, Instr.mnemonic, writesOut]

theorem dec_mem_readsIn (k : Kind) (t : TypeOpd) : (Instr.dec k t).mnemonic ∈ readsIn := by
  cases k <;> simp [Instr.dec, Instr.mnemonic, readsIn]

/-- DRAIN, ENC and FLUSH append to OUT, DEC reads IN, and every other command leaves both streams (R25). -/
theorem exec_streamEffect (i : Instr) (s : State) : ∃ t, exec i s = .next t ∧ StreamEffect i.mnemonic s t := by
  induction i using instr_families with
  | pushb e b => exact ⟨_, exec_pushb e b s, (pushByte_sameStreams e b s).effect⟩
  | pushv e n d => exact ⟨_, exec_pushv e n d s, (pushValue_sameStreams e n d s).effect⟩
  | pullv k t => exact ⟨_, exec_pullv k t s, (pullValue_sameStreams k t s).effect⟩
  | pullb => exact ⟨_, rfl, (pullByte_sameStreams s).effect⟩
  | drain e =>
    exact ⟨_, exec_drain e s, .of_write (drain_mem_writesOut e) (drainOut_appended s e) (drainOut_input s e)⟩
  | qempty => exact ⟨_, rfl, SameStreams.effect ⟨rfl, rfl⟩⟩
  | qalign => exact ⟨_, rfl, SameStreams.effect ⟨rfl, rfl⟩⟩
  | mask n => exact ⟨_, rfl, SameStreams.effect ⟨rfl, rfl⟩⟩
  | rdbuf => exact ⟨_, rfl, SameStreams.effect ⟨rfl, rfl⟩⟩
  | rdavl => exact ⟨_, rfl, SameStreams.effect ⟨rfl, rfl⟩⟩
  | dec k t =>
    exact ⟨_, exec_dec k t s, .of_read (dec_mem_readsIn k t) (decodeField_output k t s) (decodeField_input k t s)⟩
  | enc k t d =>
    exact ⟨_, exec_enc k t d s,
      .of_write (enc_mem_writesOut k t d) (fun _ => encodeField_appended k t d s) (encodeField_input k t d s)⟩
  | flush e =>
    exact ⟨_, exec_flush e s, .of_write (flush_mem_writesOut e) (flushBuffer_appended e s) (flushBuffer_input e s)⟩
  | reset => exact ⟨_, rfl, SameStreams.effect ⟨rfl, rfl⟩⟩

/-! ## The statements -/

/-- Settles O24: the bytes come from one drain of at most 64 bits. -/
theorem outputOnlyAppended : Obligations.OutputOnlyAppended := by
  intro i s t havail hexec
  obtain ⟨t', hexec', heffect⟩ := exec_streamEffect i s
  cases hexec.symm.trans hexec'
  rcases heffect.output havail with hsame | ⟨hwriter, bs, hbs, hlen⟩
  · exact ⟨[], by simp [hsame], by simp, by simp⟩
  · exact ⟨bs, hbs, hlen, fun _ => hwriter⟩

/-- Settles O25: a change of IN is a refill or an END_OF_INPUT. -/
theorem inputOnlyReadByDecode : Obligations.InputOnlyReadByDecode := by
  intro i s t hexec hchanged
  obtain ⟨t', hexec', heffect⟩ := exec_streamEffect i s
  cases hexec.symm.trans hexec'
  exact heffect.input.resolve_left hchanged

end Sys2Proof.Proofs
end

section
/-! PROOF. The decoder and the encoder of spec/30_encoding.md R41 to R46: the decoder opcode by opcode and format by
format, and from it that the two are inverse to each other, what selects a row and what is illegal. -/

namespace Sys2Proof.Proofs

open Sys2Proof.Machine Sys2Proof.Laws

/-! ## The decoder, opcode by opcode -/

/-- An operand field of format T from its kind and its descriptor. -/
theorem opdT_fields (o : BitVec 12) : opdT (.ofCode (opdKind o)) (opdType o) = o := by
  simp only [opdT, opdType, bit_ofBit, kind_code_ofCode]
  exact opd_fields o

/-- What holds of every opcode of R41, named by its rows of R45, holds of every 4-bit value. -/
theorem opcode_families {P : BitVec 4 → Prop}
    (reservedOpcode : P 0x0) (pushbBe : P 0x1) (pushbLe : P 0x2) (pushv : P 0x3) (pullv : P 0x4) (pullb : P 0x5)
    (drain : P 0x6) (qempty : P 0x7) (qalign : P 0x8) (mask : P 0x9) (rdbuf : P 0xA) (rdavl : P 0xB) (dec : P 0xC)
    (enc : P 0xD) (flush : P 0xE) (reset : P 0xF) (op : BitVec 4) : P op :=
  match op with
  | ⟨⟨0, _⟩⟩ => reservedOpcode
  | ⟨⟨1, _⟩⟩ => pushbBe
  | ⟨⟨2, _⟩⟩ => pushbLe
  | ⟨⟨3, _⟩⟩ => pushv
  | ⟨⟨4, _⟩⟩ => pullv
  | ⟨⟨5, _⟩⟩ => pullb
  | ⟨⟨6, _⟩⟩ => drain
  | ⟨⟨7, _⟩⟩ => qempty
  | ⟨⟨8, _⟩⟩ => qalign
  | ⟨⟨9, _⟩⟩ => mask
  | ⟨⟨10, _⟩⟩ => rdbuf
  | ⟨⟨11, _⟩⟩ => rdavl
  | ⟨⟨12, _⟩⟩ => dec
  | ⟨⟨13, _⟩⟩ => enc
  | ⟨⟨14, _⟩⟩ => flush
  | ⟨⟨15, _⟩⟩ => reset
  | ⟨⟨n + 16, h⟩⟩ => absurd h (by omega)

/-- What holds of a word with reserved bits and of every opcode under its own rule holds of what `decode` answers. -/
theorem decode_families {P : Command → Except DecodeError Instr → Prop}
    (reservedBits : ∀ c : Command, reserved c.cw ≠ 0 → P c (.error .reservedBits))
    (reservedOpcode : ∀ o d, P ⟨wordOf 0x0 o, d⟩ (.error .reservedOpcode))
    (pushbBe : ∀ o d, P ⟨wordOf 0x1 o, d⟩ (decodeB .pushbBe o))
    (pushbLe : ∀ o d, P ⟨wordOf 0x2 o, d⟩ (decodeB .pushbLe o))
    (pushv : ∀ o d, P ⟨wordOf 0x3 o, d⟩ (decodeW .pushv o d))
    (pullv : ∀ k t d, P ⟨wordOf 0x4 (opdT k t), d⟩ (.ok (.pullv k t)))
    (pullb : ∀ o d, P ⟨wordOf 0x5 o, d⟩ (decodeN .pullb o))
    (drain : ∀ o d, P ⟨wordOf 0x6 o, d⟩ (decodeE .drain o))
    (qempty : ∀ o d, P ⟨wordOf 0x7 o, d⟩ (decodeN .qempty o))
    (qalign : ∀ o d, P ⟨wordOf 0x8 o, d⟩ (decodeN .qalign o))
    (mask : ∀ o d, P ⟨wordOf 0x9 o, d⟩ (decodeMask o))
    (rdbuf : ∀ o d, P ⟨wordOf 0xA o, d⟩ (decodeN .rdbuf o))
    (rdavl : ∀ o d, P ⟨wordOf 0xB o, d⟩ (decodeN .rdavl o))
    (dec : ∀ k t d, P ⟨wordOf 0xC (opdT k t), d⟩ (.ok (.dec k t)))
    (enc : ∀ k t d, P ⟨wordOf 0xD (opdT k t), d⟩ (.ok (.enc k t d)))
    (flush : ∀ o d, P ⟨wordOf 0xE o, d⟩ (decodeE .flush o))
    (reset : ∀ o d, P ⟨wordOf 0xF o, d⟩ (decodeN .reset o))
    (c : Command) : P c (decode c) := by
  by_cases hr : reserved c.cw = 0
  · obtain ⟨cw, d⟩ := c
    obtain ⟨op, o, rfl⟩ : ∃ op o, cw = wordOf op o := ⟨_, _, (wordOf_fields cw hr).symm⟩
    simp only [decode, reserved_wordOf, opcode_wordOf, operand_wordOf, ne_eq, not_true_eq_false, if_false]
    have hfields := opdT_fields o
    induction op using opcode_families with
    | reservedOpcode => exact reservedOpcode o d
    | pushbBe => exact pushbBe o d
    | pushbLe => exact pushbLe o d
    | pushv => exact pushv o d
    | pullv => exact (hfields ▸ pullv (.ofCode (opdKind o)) (opdType o) d :)
    | pullb => exact pullb o d
    | drain => exact drain o d
    | qempty => exact qempty o d
    | qalign => exact qalign o d
    | mask => exact mask o d
    | rdbuf => exact rdbuf o d
    | rdavl => exact rdavl o d
    | dec => exact (hfields ▸ dec (.ofCode (opdKind o)) (opdType o) d :)
    | enc => exact (hfields ▸ enc (.ofCode (opdKind o)) (opdType o) d :)
    | flush => exact flush o d
    | reset => exact reset o d
  · rw [show decode c = .error .reservedBits by simp only [decode, ne_eq, hr, not_false_eq_true, if_true]]
    exact reservedBits c hr

/-! ## The decoder, format by format -/

section
variable {o : BitVec 12} {i : Instr}

theorem decodeN_ok {j : Instr} (h : decodeN j o = .ok i) : o = 0 ∧ i = j := by
  unfold decodeN at h
  split at h
  next ho => cases h; exact ⟨ho, rfl⟩
  next => cases h

theorem decodeB_ok {f : Byte → Instr} (h : decodeB f o = .ok i) : ∃ b, o = opdB b ∧ i = f b := by
  unfold decodeB at h
  split at h
  next hhigh => cases h; exact ⟨opdImm8 o, (opdB_fields o hhigh).symm, rfl⟩
  next => cases h

theorem decodeW_ok {f : Endian → BitVec 7 → Word → Instr} {d : Word} (h : decodeW f o d = .ok i) :
    ∃ n e, o = opdW n e ∧ i = f e n d := by
  unfold decodeW at h
  split at h
  next hzero =>
    obtain ⟨hc, hk⟩ := hzero
    cases h
    exact ⟨opdWidth o, .ofBit (opdEndian o), by simpa [opdW, hc, hk] using (opd_fields o).symm, rfl⟩
  next => cases h

theorem decodeE_ok {f : Endian → Instr} (h : decodeE f o = .ok i) : ∃ e, o = opdE e ∧ i = f e := by
  unfold decodeE at h
  split at h
  next hzero =>
    obtain ⟨hw, hc, hk⟩ := hzero
    cases h
    exact ⟨.ofBit (opdEndian o), by simpa [opdE, hw, hc, hk] using (opd_fields o).symm, rfl⟩
  next => cases h

theorem decodeMask_ok (h : decodeMask o = .ok i) : ∃ n, n.toNat ≤ 64 ∧ o = opdW n .big ∧ i = .mask n := by
  unfold decodeMask at h
  split at h
  next => cases h
  next hzero =>
    split at h
    next => cases h
    next hn =>
      obtain ⟨hc, he, hk⟩ : opdContainer o = 0 ∧ opdEndian o = 0 ∧ opdKind o = 0 := by simpa using hzero
      cases h
      exact ⟨opdWidth o, by omega, by simpa [opdW, Endian.bit, hc, he, hk] using (opd_fields o).symm, rfl⟩

end

/-! ## Decoding inverts encoding -/

/-- `c` is a command word of `i`, with the DATA of `i` where `i` reads DATA (R40). -/
structure Encodes (i : Instr) (c : Command) : Prop where
  wellFormed : i.wellFormed = true
  cw         : (encode i).cw = c.cw
  data       : i.readsData = true → (encode i).data = c.data

/-- A word of the right fields decodes, whatever DATA holds where the command does not read it. -/
theorem decode_of_encodes {i : Instr} {c : Command} (h : Encodes i c) : decode c = .ok i := by
  obtain ⟨cw, d⟩ := c
  obtain ⟨hwf, hcw, hdata⟩ := h
  subst hcw
  induction i using instr_families with
  | pushb e b => cases e <;> simp [Instr.pushb, encode, decode, decodeB]
  | pushv e n v =>
    obtain rfl : v = d := by cases e <;> exact hdata rfl
    cases e <;> simp [Instr.pushv, encode, decode, decodeW]
  | pullv k t => cases k <;> simp [Instr.pullv, encode, decode]
  | drain e => cases e <;> simp [Instr.drain, encode, decode, decodeE]
  | mask n =>
    have hn : ¬ 64 < n.toNat := by simpa [Instr.wellFormed] using hwf
    simp [encode, decode, decodeMask, Endian.bit, hn]
  | dec k t => cases k <;> simp [Instr.dec, encode, decode]
  | enc k t v =>
    obtain rfl : v = d := by cases k <;> exact hdata rfl
    cases k <;> simp [Instr.enc, encode, decode]
  | flush e => cases e <;> simp [Instr.flush, encode, decode, decodeE]
  | pullb | qempty | qalign | rdbuf | rdavl | reset => simp [encode, decode, decodeN]

/-! ## Encoding inverts decoding -/

/-- A word that decodes is a word of what it decodes to. -/
theorem encodes_of_decode (c : Command) : ∀ i, decode c = .ok i → Encodes i c := by
  induction c using decode_families with
  | reservedBits | reservedOpcode => exact fun _ h => by cases h
  | pushbBe | pushbLe =>
    intro i h
    obtain ⟨b, rfl, rfl⟩ := decodeB_ok h
    exact ⟨rfl, rfl, nofun⟩
  | pushv =>
    intro i h
    obtain ⟨n, e, rfl, rfl⟩ := decodeW_ok h
    cases e <;> exact ⟨rfl, rfl, fun _ => rfl⟩
  | pullv k | dec k =>
    rintro i ⟨⟩
    cases k <;> exact ⟨rfl, rfl, nofun⟩
  | enc k =>
    rintro i ⟨⟩
    cases k <;> exact ⟨rfl, rfl, fun _ => rfl⟩
  | drain | flush =>
    intro i h
    obtain ⟨e, rfl, rfl⟩ := decodeE_ok h
    cases e <;> exact ⟨rfl, rfl, nofun⟩
  | mask =>
    intro i h
    obtain ⟨n, hn, rfl, rfl⟩ := decodeMask_ok h
    exact ⟨decide_eq_true hn, rfl, nofun⟩
  | pullb | qempty | qalign | rdbuf | rdavl | reset =>
    intro i h
    obtain ⟨rfl, rfl⟩ := decodeN_ok h
    exact ⟨rfl, rfl, nofun⟩

/-! ## The rows of the opcode map -/

/-- Every command's word has the match bits of its row. -/
theorem encode_row (i : Instr) : EncodesToRow.Statement i :=
  match i with
  | .pushbBe b => EncodesToRow.pushbBe b
  | .pushbLe b => EncodesToRow.pushbLe b
  | .pushvBe n d => EncodesToRow.pushvBe n d
  | .pushvLe n d => EncodesToRow.pushvLe n d
  | .pullvU t => EncodesToRow.pullvU t
  | .pullvI t => EncodesToRow.pullvI t
  | .pullvF t => EncodesToRow.pullvF t
  | .pullvD t => EncodesToRow.pullvD t
  | .pullb => EncodesToRow.pullb
  | .drainBe => EncodesToRow.drainBe
  | .drainLe => EncodesToRow.drainLe
  | .qempty => EncodesToRow.qempty
  | .qalign => EncodesToRow.qalign
  | .mask n => EncodesToRow.mask n
  | .rdbuf => EncodesToRow.rdbuf
  | .rdavl => EncodesToRow.rdavl
  | .decU t => EncodesToRow.decU t
  | .decI t => EncodesToRow.decI t
  | .decF t => EncodesToRow.decF t
  | .decD t => EncodesToRow.decD t
  | .encU t d => EncodesToRow.encU t d
  | .encI t d => EncodesToRow.encI t d
  | .encF t d => EncodesToRow.encF t d
  | .encD t d => EncodesToRow.encD t d
  | .flushBe => EncodesToRow.flushBe
  | .flushLe => EncodesToRow.flushLe
  | .reset => EncodesToRow.reset

/-- A field that a mask keeps whole. -/
theorem field_of_and {w lo len : Nat} {x m y : BitVec w} (h : x &&& m = y)
    (hm : m.extractLsb' lo len = BitVec.allOnes len) : x.extractLsb' lo len = y.extractLsb' lo len := by
  rw [← h, BitVec.extractLsb'_and, hm, BitVec.and_allOnes]

/-- A word that a mask of R45 takes to `wordOf op o` has that opcode, and an operand field that the mask takes to `o`.
-/
theorem word_of_and {cw m : BitVec 32} {op : BitVec 4} {o : BitVec 12} (h : cw &&& m = wordOf op o)
    (hop : opcode m = BitVec.allOnes 4) (hres : reserved m = BitVec.allOnes 16) :
    cw = wordOf op (operand cw) ∧ operand cw &&& operand m = o := by
  have hopcode : opcode cw = op := (field_of_and h hop).trans (opcode_wordOf op o)
  have hreserved : reserved cw = 0 := (field_of_and h hres).trans (reserved_wordOf op o)
  refine ⟨by rw [← hopcode, wordOf_fields cw hreserved], ?_⟩
  rw [← operand_wordOf op o, ← h]
  exact BitVec.extractLsb'_and.symm

section
variable {cw : BitVec 32} (op : BitVec 4)

theorem formatB_of_and (h : cw &&& 0xFFFFFF00 = wordOf op 0) : ∃ b, wordOf op (opdB b) = cw := by
  obtain ⟨hcw, ho⟩ := word_of_and h rfl rfl
  have hhigh : opdHigh (operand cw) = 0 := field_of_and ho rfl
  exact ⟨opdImm8 (operand cw), by rw [opdB_fields _ hhigh, ← hcw]⟩

theorem formatW_of_and (e : Endian) (h : cw &&& 0xFFFFF01F = wordOf op (opdW 0 e)) :
    ∃ n, wordOf op (opdW n e) = cw := by
  obtain ⟨hcw, ho⟩ := word_of_and h rfl rfl
  have hc : opdContainer (operand cw) = 0 := (field_of_and ho rfl).trans (opdContainer_opdW 0 e)
  have he : opdEndian (operand cw) = e.bit := (field_of_and ho rfl).trans (opdEndian_opdW 0 e)
  have hk : opdKind (operand cw) = 0 := (field_of_and ho rfl).trans (opdKind_opdW 0 e)
  refine ⟨opdWidth (operand cw), ?_⟩
  rw [hcw, operand_wordOf, ← opd_fields (operand cw), hc, he, hk, opdWidth_append]
  rfl

theorem formatT_of_and (k : Kind) (h : cw &&& 0xFFFFF003 = wordOf op (opdT k ⟨0, 0, .big⟩)) :
    ∃ t, wordOf op (opdT k t) = cw := by
  obtain ⟨hcw, ho⟩ := word_of_and h rfl rfl
  have hk : opdKind (operand cw) = k.code := (field_of_and ho rfl).trans (opdKind_opdT k _)
  have hfields := opdT_fields (operand cw)
  rw [hk, kind_ofCode_code] at hfields
  exact ⟨opdType (operand cw), by rw [hfields, ← hcw]⟩

end

theorem word_of_and_allOnes {cw p : BitVec 32} (h : cw &&& 0xFFFFFFFF = p) : p = cw :=
  h.symm.trans BitVec.and_allOnes

/-- A field of the operand read from the word. -/
theorem subfield_wordOf (op : BitVec 4) (o : BitVec 12) {lo len : Nat} (h : lo + len ≤ 12) :
    (wordOf op o).extractLsb' lo len = o.extractLsb' lo len := by
  conv_rhs => rw [← operand_wordOf op o]
  exact (BitVec.extractLsb'_extractLsb'_of_le h).symm

theorem width_wordOf (op : BitVec 4) (o : BitVec 12) : (wordOf op o).extractLsb' 5 7 = opdWidth o :=
  subfield_wordOf op o (by decide)

/-- A word that meets match and mask of a row, and for MASK the bound on `n`, is a command word of that row. -/
theorem encodes_of_row {m : Mnemonic} {c : Command} (h : c.cw &&& m.row.mask = m.row.pattern)
    (hn : m = .mask → (c.cw.extractLsb' 5 7).toNat ≤ 64) : ∃ i : Instr, Encodes i c ∧ i.mnemonic = m := by
  cases m with
  | pushbBe => obtain ⟨b, hb⟩ := formatB_of_and 0x1 h; exact ⟨.pushbBe b, ⟨rfl, hb, nofun⟩, rfl⟩
  | pushbLe => obtain ⟨b, hb⟩ := formatB_of_and 0x2 h; exact ⟨.pushbLe b, ⟨rfl, hb, nofun⟩, rfl⟩
  | pushvBe => obtain ⟨n, hcw⟩ := formatW_of_and 0x3 .big h; exact ⟨.pushvBe n c.data, ⟨rfl, hcw, fun _ => rfl⟩, rfl⟩
  | pushvLe => obtain ⟨n, hcw⟩ := formatW_of_and 0x3 .little h; exact ⟨.pushvLe n c.data, ⟨rfl, hcw, fun _ => rfl⟩, rfl⟩
  | pullvU => obtain ⟨t, ht⟩ := formatT_of_and 0x4 .uint h; exact ⟨.pullvU t, ⟨rfl, ht, nofun⟩, rfl⟩
  | pullvI => obtain ⟨t, ht⟩ := formatT_of_and 0x4 .int h; exact ⟨.pullvI t, ⟨rfl, ht, nofun⟩, rfl⟩
  | pullvF => obtain ⟨t, ht⟩ := formatT_of_and 0x4 .float h; exact ⟨.pullvF t, ⟨rfl, ht, nofun⟩, rfl⟩
  | pullvD => obtain ⟨t, ht⟩ := formatT_of_and 0x4 .double h; exact ⟨.pullvD t, ⟨rfl, ht, nofun⟩, rfl⟩
  | decU => obtain ⟨t, ht⟩ := formatT_of_and 0xC .uint h; exact ⟨.decU t, ⟨rfl, ht, nofun⟩, rfl⟩
  | decI => obtain ⟨t, ht⟩ := formatT_of_and 0xC .int h; exact ⟨.decI t, ⟨rfl, ht, nofun⟩, rfl⟩
  | decF => obtain ⟨t, ht⟩ := formatT_of_and 0xC .float h; exact ⟨.decF t, ⟨rfl, ht, nofun⟩, rfl⟩
  | decD => obtain ⟨t, ht⟩ := formatT_of_and 0xC .double h; exact ⟨.decD t, ⟨rfl, ht, nofun⟩, rfl⟩
  | encU => obtain ⟨t, ht⟩ := formatT_of_and 0xD .uint h; exact ⟨.encU t c.data, ⟨rfl, ht, fun _ => rfl⟩, rfl⟩
  | encI => obtain ⟨t, ht⟩ := formatT_of_and 0xD .int h; exact ⟨.encI t c.data, ⟨rfl, ht, fun _ => rfl⟩, rfl⟩
  | encF => obtain ⟨t, ht⟩ := formatT_of_and 0xD .float h; exact ⟨.encF t c.data, ⟨rfl, ht, fun _ => rfl⟩, rfl⟩
  | encD => obtain ⟨t, ht⟩ := formatT_of_and 0xD .double h; exact ⟨.encD t c.data, ⟨rfl, ht, fun _ => rfl⟩, rfl⟩
  | mask =>
    obtain ⟨n, hcw⟩ := formatW_of_and 0x9 .big h
    have hle : n.toNat ≤ 64 := by simpa [← hcw, width_wordOf] using hn rfl
    exact ⟨.mask n, ⟨decide_eq_true hle, hcw, nofun⟩, rfl⟩
  | pullb => exact ⟨.pullb, ⟨rfl, word_of_and_allOnes h, nofun⟩, rfl⟩
  | drainBe => exact ⟨.drainBe, ⟨rfl, word_of_and_allOnes h, nofun⟩, rfl⟩
  | drainLe => exact ⟨.drainLe, ⟨rfl, word_of_and_allOnes h, nofun⟩, rfl⟩
  | qempty => exact ⟨.qempty, ⟨rfl, word_of_and_allOnes h, nofun⟩, rfl⟩
  | qalign => exact ⟨.qalign, ⟨rfl, word_of_and_allOnes h, nofun⟩, rfl⟩
  | rdbuf => exact ⟨.rdbuf, ⟨rfl, word_of_and_allOnes h, nofun⟩, rfl⟩
  | rdavl => exact ⟨.rdavl, ⟨rfl, word_of_and_allOnes h, nofun⟩, rfl⟩
  | flushBe => exact ⟨.flushBe, ⟨rfl, word_of_and_allOnes h, nofun⟩, rfl⟩
  | flushLe => exact ⟨.flushLe, ⟨rfl, word_of_and_allOnes h, nofun⟩, rfl⟩
  | reset => exact ⟨.reset, ⟨rfl, word_of_and_allOnes h, nofun⟩, rfl⟩

theorem eq_mask_of_mnemonic {i : Instr} (h : i.mnemonic = .mask) : ∃ n, i = .mask n := by
  cases i with
  | mask n => exact ⟨n, rfl⟩
  | _ => cases h

/-- A command word of `i` meets match and mask of the row of `i`, and for MASK the bound on `n`. -/
theorem row_of_encodes {i : Instr} {c : Command} (h : Encodes i c) :
    c.cw &&& i.mnemonic.row.mask = i.mnemonic.row.pattern ∧
    (i.mnemonic = .mask → (c.cw.extractLsb' 5 7).toNat ≤ 64) := by
  obtain ⟨hwf, hcw, -⟩ := h
  rw [← hcw]
  refine ⟨encode_row i, fun hm => ?_⟩
  obtain ⟨n, rfl⟩ := eq_mask_of_mnemonic hm
  simpa [encode, width_wordOf, Instr.wellFormed] using hwf

/-! ## Illegal words -/

theorem field_split {w : Nat} (x : BitVec w) (lo low high : Nat) :
    x.extractLsb' lo (high + low) = x.extractLsb' (lo + low) high ++ x.extractLsb' lo low :=
  (BitVec.extractLsb'_append_extractLsb'_eq_extractLsb' rfl).symm

theorem append_eq_zero_iff {w v : Nat} (x : BitVec w) (y : BitVec v) : x ++ y = 0 ↔ x = 0 ∧ y = 0 := by
  have hpos := Nat.two_pow_pos v
  simp only [← BitVec.toNat_inj, append_toNat, BitVec.ofNat_eq_ofNat, BitVec.toNat_ofNat, Nat.zero_mod]
  rw [Nat.add_eq_zero_iff, Nat.mul_eq_zero, or_iff_left hpos.ne']

theorem exists_ite_eq_error {p : Prop} [Decidable p] (i : Instr) (x : DecodeError) :
    (∃ y, (if p then Except.ok i else Except.error x) = Except.error y) ↔ ¬ p := by
  split <;> simp [*]

section
variable (o : BitVec 12)

theorem decodeN_error_iff (i : Instr) : (∃ x, decodeN i o = .error x) ↔ o ≠ 0 := exists_ite_eq_error ..

theorem decodeB_error_iff (f : Byte → Instr) : (∃ x, decodeB f o = .error x) ↔ opdHigh o ≠ 0 :=
  exists_ite_eq_error ..

theorem decodeE_error_iff (f : Endian → Instr) :
    (∃ x, decodeE f o = .error x) ↔ o.extractLsb' 3 9 ≠ 0 ∨ opdKind o ≠ 0 := by
  have happend : o.extractLsb' 3 9 = opdWidth o ++ opdContainer o := field_split o 3 2 7
  rw [happend, ne_eq, append_eq_zero_iff, ← not_and_or, and_assoc]
  exact exists_ite_eq_error ..

theorem decodeW_error_iff (f : Endian → BitVec 7 → Word → Instr) (d : Word) :
    (∃ x, decodeW f o d = .error x) ↔ opdContainer o ≠ 0 ∨ opdKind o ≠ 0 :=
  (exists_ite_eq_error ..).trans not_and_or

theorem decodeMask_error_iff :
    (∃ x, decodeMask o = .error x) ↔ o.extractLsb' 0 5 ≠ 0 ∨ 64 < (opdWidth o).toNat := by
  have happend : o.extractLsb' 0 5 = opdContainer o ++ (opdEndian o ++ opdKind o) := by
    have hlow : o.extractLsb' 0 3 = opdEndian o ++ opdKind o := field_split o 0 2 1
    exact hlow ▸ field_split o 0 3 2
  rw [happend, ne_eq, append_eq_zero_iff, append_eq_zero_iff, not_and_or, not_and_or, decodeMask]
  split
  next hbits => exact ⟨fun _ => .inl hbits, fun _ => ⟨_, rfl⟩⟩
  next hbits =>
    rw [or_iff_right hbits]
    split
    next hn => exact ⟨fun _ => hn, fun _ => ⟨_, rfl⟩⟩
    next hn => exact ⟨nofun, fun h => absurd h hn⟩

end

/-- The list of R46 on a word built of an opcode and an operand field. -/
theorem reservedEncoding_wordOf (op : BitVec 4) (o : BitVec 12) :
    ReservedEncoding (wordOf op o) ↔
      op.toNat = 0x0 ∨
      (op.toNat ∈ [0x5, 0x7, 0x8, 0xA, 0xB, 0xF] ∧ o ≠ 0) ∨
      (op.toNat ∈ [0x1, 0x2] ∧ opdHigh o ≠ 0) ∨
      (op.toNat ∈ [0x6, 0xE] ∧ (o.extractLsb' 3 9 ≠ 0 ∨ opdKind o ≠ 0)) ∨
      (op.toNat = 0x3 ∧ (opdContainer o ≠ 0 ∨ opdKind o ≠ 0)) ∨
      (op.toNat = 0x9 ∧ (o.extractLsb' 0 5 ≠ 0 ∨ 64 < (opdWidth o).toNat)) := by
  have hop : (wordOf op o).extractLsb' 28 4 = op := opcode_wordOf op o
  have hres : (wordOf op o).extractLsb' 12 16 = 0 := reserved_wordOf op o
  simp [ReservedEncoding, hop, hres, subfield_wordOf, opdHigh, opdContainer, opdKind, opdWidth]

theorem decode_error_iff (c : Command) : (∃ x, decode c = .error x) ↔ ReservedEncoding c.cw := by
  induction c using decode_families with
  | reservedBits c hr => exact ⟨fun _ => .inr (.inl hr), fun _ => ⟨_, rfl⟩⟩
  | reservedOpcode o d => simp [reservedEncoding_wordOf]
  | pushbBe | pushbLe => simp [reservedEncoding_wordOf, decodeB_error_iff]
  | pushv => simp [reservedEncoding_wordOf, decodeW_error_iff]
  | pullv | dec | enc => simp [reservedEncoding_wordOf]
  | drain | flush => simp [reservedEncoding_wordOf, decodeE_error_iff]
  | mask => simp [reservedEncoding_wordOf, decodeMask_error_iff]
  | pullb | qempty | qalign | rdbuf | rdavl | reset => simp [reservedEncoding_wordOf, decodeN_error_iff]

/-! ## The statements -/

/-- Settles O1: every command encodes to a word of itself. -/
theorem decodeOfEncode : Obligations.DecodeOfEncode :=
  fun _ hwf => decode_of_encodes ⟨hwf, rfl, fun _ => rfl⟩

/-- Settles O2, opcode by opcode. -/
theorem encodeOfDecode : Obligations.EncodeOfDecode := by
  intro c i h
  obtain ⟨hwf, hcw, hdata⟩ := encodes_of_decode c i h
  exact ⟨hwf, hcw, hdata⟩

/-- Settles O3: a row's match and mask fix every field but the operands, and the operands are free. -/
theorem wordSelectsRow : Obligations.WordSelectsRow := by
  intro c m
  constructor
  · rintro ⟨i, hd, rfl⟩
    exact row_of_encodes (encodes_of_decode c i hd)
  · rintro ⟨hand, hn⟩
    obtain ⟨i, hi, hm⟩ := encodes_of_row hand hn
    exact ⟨i, decode_of_encodes hi, hm⟩

/-- Settles O4, opcode by opcode; the step on such a word is `step_illegal`. -/
theorem reservedEncodingsAreIllegal : Obligations.ReservedEncodingsAreIllegal := by
  refine ⟨decode_error_iff, fun s c rest hc hf hres => ?_⟩
  obtain ⟨x, hx⟩ := (decode_error_iff c).mpr hres
  exact step_illegal hc (.inl hf) hx

/-- Settles O5, by evaluating the decoder on the ten words. -/
theorem writtenWordsDecode : Obligations.WrittenWordsDecode := by
  unfold Obligations.WrittenWordsDecode
  decide

end Sys2Proof.Proofs
end

section
/-! PROOF. DATA (spec/30_encoding.md R40, R51): a command that does not read it decodes alike under any, and a push of
`n` bits takes its low `n` bits only. -/

namespace Sys2Proof.Proofs

open Sys2Proof.Machine Sys2Proof.Laws

/-- A word that decodes to a command that does not read DATA decodes to it under any DATA. -/
theorem decode_of_not_readsData {cw : BitVec 32} {d : Word} {i : Instr} (hd : decode ⟨cw, d⟩ = .ok i)
    (hi : i.readsData = false) (d' : Word) : decode ⟨cw, d'⟩ = .ok i := by
  obtain ⟨hwf, hcw, -⟩ := encodes_of_decode _ i hd
  exact decode_of_encodes ⟨hwf, hcw, fun h => by simp [hi] at h⟩

/-- A push of `n` bits takes the value mod 2^n. -/
theorem push_congr (b : BitBuffer) (e : Endian) {n : Nat} {v w : Word} (h : v.toNat % 2 ^ n = w.toNat % 2 ^ n) :
    b.push e v n = b.push e w n := by
  have hmask : v &&& mask n = w &&& mask n := by
    apply BitVec.eq_of_toNat_eq
    rw [and_mask_toNat, and_mask_toNat, h]
  cases e <;> simp only [BitBuffer.push, BitBuffer.pushBe, BitBuffer.pushLe, hmask]

/-- Settles O26: the decoded command is the same, the refusals do not look at DATA, and a push takes the low bits. -/
theorem unusedDataIgnored : Obligations.UnusedDataIgnored := by
  refine ⟨fun s cw d d' i hd hi => ?_, fun s e n d d' h => ?_, fun s k t d d' h => ?_⟩
  · have hd' := decode_of_not_readsData hd hi d'
    by_cases hg : s.fault = 0 ∨ cw = resetWord
    · rw [step_run (present_commands s ⟨cw, d⟩) hg hd, step_run (present_commands s ⟨cw, d'⟩) hg hd']
      rfl
    · obtain ⟨hf, hw⟩ := not_or.mp hg
      rw [step_refused (present_commands s ⟨cw, d⟩) hf hw, step_refused (present_commands s ⟨cw, d'⟩) hf hw]
      rfl
  · rw [exec_pushv, exec_pushv, pushValue, pushValue, push_congr s.buf e h]
  · rw [exec_enc, exec_enc, encodeField, encodeField]
    split
    next => rfl
    next ft hcheck =>
      obtain ⟨-, -, -, -, hwidth, -⟩ := checkField_ok hcheck
      rw [push_congr s.buf ft.endian (hwidth ▸ h)]

end Sys2Proof.Proofs
end

section
/-! PROOF. The order of decoding (spec/30_encoding.md R47), and the codes of the response port (R49, R50). -/

namespace Sys2Proof.Proofs

open Sys2Proof.Machine Sys2Proof.Laws

/-- Settles O6, by evaluating the code functions. -/
theorem responseCodes : Obligations.ResponseCodes :=
  ⟨rfl, fun g => by cases g <;> exact ⟨rfl, rfl⟩, rfl⟩

/-- Settles O12: the rule of the step for a word that decodes. -/
theorem stepRunsDecodedCommand : Obligations.StepRunsDecodedCommand :=
  fun _ _ _ _ hc hd hg => step_run hc hg hd

/-- Settles O13: one rule of the step for each of the three cases. -/
theorem stepFollowsR47 : Obligations.StepFollowsR47 := by
  intro s c rest hc
  split
  next hrefused => exact step_refused hc hrefused.1 hrefused.2
  next hn =>
    have hg : s.fault = 0 ∨ c.cw = resetWord := (not_and_or.mp hn).imp not_not.mp not_not.mp
    split
    next x hd => exact step_illegal hc hg hd
    next i hd => exact step_run hc hg hd

end Sys2Proof.Proofs
end

section
/-! PROOF. The check of a type descriptor (spec/30_encoding.md R44): the FieldType a legal one gives, and what the three
commands of format T answer to any other. -/

namespace Sys2Proof.Proofs

open Sys2Proof.Machine Sys2Proof.Laws

/-! ## A legal type descriptor -/

theorem container_bits_eq (c : Container) : c.bits = 8 * c.bytes := by cases c <;> rfl

theorem container_code_of_bytes {c : Container} {cc : BitVec 2} (h : c.bytes = 2 ^ cc.toNat) : c.code = cc := by
  revert cc
  cases c <;> decide

/-- R93 through the projections: it holds of the fixed widths of Float and Double too. -/
theorem wellFormed_iff (ft : FieldType) :
    ft.wellFormed = true ↔ 1 ≤ ft.numBits ∧ ft.numBits ≤ 64 ∧ ft.numBits ≤ ft.container.bits := by
  cases ft with
  | uint | int => simp [FieldType.wellFormed, FieldType.numBits, FieldType.container, and_assoc]
  | float | double => simp [FieldType.wellFormed, FieldType.numBits, FieldType.container, Container.bits]

/-- The FieldType that `check_td` answers is well formed, and its type descriptor is the one checked. -/
theorem fieldType_of_checkTd {k : Kind} {t : TypeOpd} {ft : FieldType} (h : checkTd k t = .ok ft) :
    ft.wellFormed = true ∧ ft.container.bits = 8 * 2 ^ t.cc.toNat ∧ ft.typeOpd = t := by
  obtain ⟨hl, rfl, he, hn, hbytes⟩ := checkTd_ok h
  have hbits : ft.container.bits = 8 * 2 ^ t.cc.toNat := by rw [container_bits_eq, hbytes]
  have hcode := container_code_of_bytes hbytes
  refine ⟨?_, hbits, ?_⟩
  · rw [wellFormed_iff, hn, hbits]
    exact numBits_pos_of_legal hl
  · obtain ⟨nb, cc, e⟩ := t
    cases ft with
    | uint n _ c | int n _ c =>
      obtain rfl : n = nb.toNat := hn
      obtain rfl : c.code = cc := hcode
      obtain rfl := he
      simp [FieldType.typeOpd, FieldType.endian]
    | float | double =>
      obtain ⟨rfl, rfl⟩ := hl
      obtain rfl := he
      rfl

/-! ## An illegal type descriptor -/

/-- The fault of an illegal TD: the width is checked first (R44). -/
theorem checkTd_illegal {k : Kind} {t : TypeOpd} (h : ¬ LegalTd k t) :
    checkTd k t = .error
      (if (k = .uint ∨ k = .int) ∧ (t.nb.toNat = 0 ∨ t.nb.toNat > 64) then .unsupportedWidth else .typeFormat) := by
  cases hc : checkTd k t with
  | ok ft => exact absurd (checkTd_ok hc).1 h
  | error x =>
    have hcheck : checkField k t ⟨0, 0⟩ = .error x := by simp only [checkField, hc]
    rcases checkField_error hcheck with ⟨rfl, hk, hn⟩ | ⟨rfl, -, hn⟩ | ⟨-, hl, -⟩
    · rw [if_pos ⟨hk, hn⟩]
    · rw [if_neg]
      rintro ⟨hk, hbad⟩
      obtain ⟨hpos, hle⟩ := hn hk
      omega
    · exact absurd hl h

theorem checkField_of_checkTd_error {k : Kind} {t : TypeOpd} {x : FaultCause} (h : checkTd k t = .error x)
    (b : BitBuffer) : checkField k t b = .error x := by
  simp only [checkField, h]

/-! ## The statement -/

/-- Settles O7: the width is checked before the format, and all of it before anything else. -/
theorem checkTdIsR44 : Obligations.CheckTdIsR44 := by
  intro k t
  refine ⟨fun hl => ?_, fun hl => ⟨checkTd_illegal hl, fun s data => ?_⟩⟩
  · obtain ⟨ft, hft, hk, he, hn, -⟩ := checkTd_legal hl
    obtain ⟨hwf, hbits, htd⟩ := fieldType_of_checkTd hft
    exact ⟨ft, hft, hwf, hk, he, hbits, hn, htd⟩
  · have hcheck := checkField_of_checkTd_error (checkTd_illegal hl) s.buf
    have hexec := fun i => exec_of_checkField_error hcheck (d := data) (i := i)
    exact ⟨hexec _ (by simp), hexec _ (by simp), hexec _ (by simp)⟩

end Sys2Proof.Proofs
end

section
/-! PROOF. ENC is PUSHV and then DRAIN (spec/30_encoding.md R52, spec/44_field_codec.md R116). -/

namespace Sys2Proof.Proofs

open Sys2Proof.Machine Sys2Proof.Laws

/-- An ENC whose checks pass pushes the field and drains the buffer. -/
theorem encodeField_of_room {k : Kind} {t : TypeOpd} {s : State} (hl : LegalTd k t) (ha : AlignedFor k s.buf)
    (hroom : s.buf.avail + requestWidth k t ≤ 64) (data : Word) :
    encodeField k t data s = (s.setBuf (s.buf.push t.e data (requestWidth k t))).drainOut t.e := by
  obtain ⟨ft, hcheck, -, he, hn, -⟩ := checkField_legal hl ha
  rcases encodeField_cases k t data s with ⟨x, hx, -⟩ | ⟨ft', hft', ⟨hfull, -⟩ | ⟨-, h⟩⟩
  · cases hcheck.symm.trans hx
  · cases hcheck.symm.trans hft'
    omega
  · cases hcheck.symm.trans hft'
    rw [h, he, hn]

/-- A PUSHV of a width that fits pushes and answers OK. -/
theorem pushValue_of_room {n : BitVec 7} {s : State} (hpos : 1 ≤ n.toNat) (hroom : s.buf.avail + n.toNat ≤ 64)
    (e : Endian) (data : Word) :
    pushValue e n data s = (s.setBuf (s.buf.push e data n.toNat)).respond .ok none 0 := by
  rcases pushValue_cases e n data s with ⟨hzero, -⟩ | ⟨-, hfull, -⟩ | ⟨-, -, h⟩
  · omega
  · omega
  · exact h

/-- Settles O44: the drain after the push is the drain inside ENC, and an answer in between does not change it. -/
theorem encodeIsPushThenDrain : Obligations.EncodeIsPushThenDrain := by
  intro k t n data s s1 s2 s3 hl ha hroom hn henc hpush hdrain
  have hpos := (numBits_pos_of_legal hl).1
  rw [exec_enc, encodeField_of_room hl ha hroom] at henc
  rw [exec_pushv, pushValue_of_room (by omega) (by omega), hn] at hpush
  rw [exec_drain] at hdrain
  cases henc
  cases hpush
  cases hdrain
  exact ⟨rfl, rfl, rfl, rfl, by simp [State.drainOut]⟩

end Sys2Proof.Proofs
end

section
/-! PROOF. Type descriptor strings (spec/30_encoding.md R53 to R56): the grammar ignores case, and it reads what the
formatter writes. -/

namespace Sys2Proof.Proofs

open Sys2Proof.Machine Sys2Proof.Laws

/-! ## Numerals -/

theorem hexDigit_of_isDigit {c : Char} (h : c.isDigit = true) : hexDigit c = some (c.toNat - '0'.toNat) := by
  simp only [hexDigit, if_pos h]

theorem digit_lt_ten {c : Char} (h : c.isDigit = true) : c.toNat - '0'.toNat < 10 := by
  have hnine : c.toNat ≤ 57 := (Char.isDigit_iff_toNat.mp h).2
  show c.toNat - 48 < 10
  omega

/-- The digits of a numeral, read on from a number already read. -/
theorem foldl_digits {cs : List Char} (h : ∀ c ∈ cs, c.isDigit = true) (a : Nat) :
    cs.foldl (fun acc c => acc.bind fun n => (hexDigit c).bind fun d => if d < 10 then some (10 * n + d) else none)
      (some a) = some (Nat.ofDigitChars 10 cs a) := by
  induction cs generalizing a with
  | nil => rfl
  | cons c cs ih =>
    obtain ⟨hc, hcs⟩ := List.forall_mem_cons.mp h
    simp only [List.foldl_cons, Option.bind_some, hexDigit_of_isDigit hc, if_pos (digit_lt_ten hc)]
    rw [ih hcs, Nat.ofDigitChars_cons]

theorem decimalText_isDigit {n : Nat} {c : Char} (h : c ∈ decimalText n) : c.isDigit = true :=
  Nat.isDigit_of_mem_toDigits (by decide) (by decide) h

theorem decimalText_ne_nil (n : Nat) : decimalText n ≠ [] := Nat.toDigits_ne_nil

theorem decimal_decimalText (n : Nat) : decimal (decimalText n) = some n := by
  rw [decimal, digitsIn, if_neg (decimalText_ne_nil n), foldl_digits fun _ => decimalText_isDigit]
  exact congrArg some Nat.ofDigitChars_ten_toDigits

/-! ## Case -/

/-- The grammar reads a text in lower case only. -/
theorem parseType_congr {a b : List Char} (h : a.map Char.toLower = b.map Char.toLower) :
    parseType a = parseType b := by
  simp only [parseType, parseDesc, h]

/-- Settles O10: a text and its upper-case form are the same in lower case. -/
theorem descriptorCaseInsensitive : Obligations.DescriptorCaseInsensitive := by
  intro text
  refine parseType_congr ?_
  rw [List.map_map]
  exact List.map_congr_left fun c _ => Char.toLower_toUpper_eq_toLower c

/-! ## The characters of a formatted descriptor -/

/-- The characters that R56 writes: lower-case letters, digits, the underscore and the colon. -/
def descChar (c : Char) : Bool := c.isLower || c.isDigit || c == '_' || c == ':'

theorem not_isUpper_of_isDigit {c : Char} (h : c.isDigit = true) : ¬ c.isUpper = true := by
  have hnine : c.toNat ≤ 57 := (Char.isDigit_iff_toNat.mp h).2
  simp only [Char.isUpper, decide_eq_true_eq, UInt32.le_iff_toNat_le]
  exact fun hupper => absurd (Nat.le_trans hupper.1 hnine) (by decide)

theorem descChar_not_isUpper {c : Char} (h : descChar c = true) : ¬ c.isUpper = true := by
  simp only [descChar, Bool.or_eq_true, beq_iff_eq] at h
  obtain ((hlower | hdigit) | rfl) | rfl := h
  · exact Char.not_isUpper_of_isLower hlower
  · exact not_isUpper_of_isDigit hdigit
  · decide
  · decide

theorem descChar_toLower {c : Char} (h : descChar c = true) : c.toLower = c :=
  Char.toLower_eq_of_not_isUpper (descChar_not_isUpper h)

theorem map_toLower_of_descChar {cs : List Char} (h : cs.all descChar = true) : cs.map Char.toLower = cs :=
  (List.map_congr_left fun c hc => descChar_toLower (List.all_eq_true.mp h c hc)).trans (List.map_id cs)

theorem decimalText_descChar (n : Nat) : (decimalText n).all descChar = true :=
  List.all_eq_true.mpr fun c hc => by simp [descChar, decimalText_isDigit hc]

theorem orderText_descChar (e : Endian) : (orderText e).all descChar = true := by cases e <;> decide

theorem formatInt_descChar {name : List Char} (h : name.all descChar = true) (n : Nat) (e : Endian) (c : Container) :
    (formatInt name n e c).all descChar = true := by
  have hsuffix : (':' :: decimalText c.bits).all descChar = true := decimalText_descChar c.bits
  simp only [formatInt, List.all_append, h, decimalText_descChar, orderText_descChar, Bool.true_and]
  split
  · rfl
  · exact hsuffix

theorem formatType_descChar (ft : FieldType) : (formatType ft).all descChar = true := by
  cases ft with
  | uint n e c => exact formatInt_descChar (by decide) n e c
  | int n e c => exact formatInt_descChar (by decide) n e c
  | float e => cases e <;> decide
  | double e => cases e <;> decide

/-! ## Parsing the parts of a descriptor -/

theorem orderText_takeWhile (e : Endian) (r : List Char) : (orderText e ++ r).takeWhile Char.isDigit = [] := by
  cases e <;> rfl

theorem orderText_dropWhile (e : Endian) (r : List Char) :
    (orderText e ++ r).dropWhile Char.isDigit = orderText e ++ r := by
  cases e <;> rfl

theorem stripOrder_orderText (e : Endian) (r : List Char) : stripOrder (orderText e ++ r) = some (e, r) := by
  cases e <;> rfl

/-- A lower-case text of the four parts of R53 is read part by part. -/
theorem parseDesc_parts {name ds suffix : List Char} {k : Kind} {e : Endian} {c : Option Nat}
    (hlower : (name ++ ds ++ orderText e ++ suffix).all descChar = true)
    (hname : ∀ r, stripKind (name ++ r) = some (k, r)) (hds : ∀ c ∈ ds, c.isDigit = true)
    (hsuffix : parseSuffix suffix = some c) :
    parseDesc (name ++ ds ++ orderText e ++ suffix) = some ⟨k, decimal ds, e, c⟩ := by
  rw [parseDesc, map_toLower_of_descChar hlower]
  simp only [List.append_assoc, hname, Option.bind_some, List.takeWhile_append_of_pos hds,
    List.dropWhile_append_of_pos hds, orderText_takeWhile, orderText_dropWhile, stripOrder_orderText, hsuffix,
    Option.map_some, List.append_nil]

/-- The suffix that R56 writes names the container when it is not the default. -/
theorem parseSuffix_formatInt (n : Nat) (c : Container) :
    parseSuffix (if c = .smallestFor n then [] else ':' :: decimalText c.bits) =
      some (if c = .smallestFor n then none else some c.bits) := by
  split
  · rfl
  · simp only [parseSuffix, decimal_decimalText, Option.map_some]

theorem parseDesc_formatInt {name : List Char} {k : Kind} (n : Nat) (e : Endian) (c : Container)
    (hname : ∀ r, stripKind (name ++ r) = some (k, r)) (hchars : name.all descChar = true) :
    parseDesc (formatInt name n e c) = some ⟨k, some n, e, if c = .smallestFor n then none else some c.bits⟩ := by
  rw [formatInt, parseDesc_parts (formatInt_descChar hchars n e c) hname (fun _ => decimalText_isDigit)
    (parseSuffix_formatInt n c), decimal_decimalText]

theorem parseDesc_formatFloat {name : List Char} {k : Kind} (e : Endian)
    (hname : ∀ r, stripKind (name ++ r) = some (k, r)) (hchars : name.all descChar = true) :
    parseDesc (name ++ orderText e) = some ⟨k, none, e, none⟩ := by
  have hall : (name ++ [] ++ orderText e ++ []).all descChar = true := by
    simp only [List.append_nil, List.all_append, hchars, orderText_descChar, Bool.true_and]
  have hparts := parseDesc_parts hall hname (by simp) rfl
  rwa [List.append_nil, List.append_nil] at hparts

/-! ## Resolving the numbers -/

theorem containerOfBits_bits (c : Container) : containerOfBits c.bits = some c := by cases c <;> rfl

theorem resolveInt_format (mk : Nat → Endian → Container → FieldType) (k : Kind) (e : Endian) {n : Nat} {c : Container}
    (hpos : 1 ≤ n) (hle : n ≤ 64) (hfits : n ≤ c.bits) :
    resolveInt mk ⟨k, some n, e, if c = .smallestFor n then none else some c.bits⟩ = .ok (mk n e c) := by
  have hwidth : ¬ (n = 0 ∨ n > 64) := by omega
  simp only [resolveInt, if_neg hwidth]
  by_cases hc : c = .smallestFor n
  · subst hc
    simp only [if_true]
  · simp only [if_neg hc, containerOfBits_bits, if_neg (Nat.not_lt.mpr hfits)]

theorem parseType_of_parseDesc {text : List Char} {d : DescText} (h : parseDesc text = some d) :
    parseType text = resolve d := by
  simp only [parseType, h]

theorem parseType_formatType {ft : FieldType} (h : ft.wellFormed = true) : parseType (formatType ft) = .ok ft := by
  obtain ⟨hpos, hle, hfits⟩ := (wellFormed_iff ft).mp h
  cases ft with
  | uint n e c =>
    have hdesc := parseDesc_formatInt (name := ['u', 'i', 'n', 't']) (k := .uint) n e c (fun _ => rfl) (by decide)
    rw [formatType, parseType_of_parseDesc hdesc]
    exact resolveInt_format .uint .uint e hpos hle hfits
  | int n e c =>
    have hdesc := parseDesc_formatInt (name := ['i', 'n', 't']) (k := .int) n e c (fun _ => rfl) (by decide)
    rw [formatType, parseType_of_parseDesc hdesc]
    exact resolveInt_format .int .int e hpos hle hfits
  | float e =>
    have hdesc := parseDesc_formatFloat (name := ['f', 'l', 'o', 'a', 't']) (k := .float) e (fun _ => rfl) (by decide)
    rw [formatType, parseType_of_parseDesc hdesc]
    rfl
  | double e =>
    have hdesc :=
      parseDesc_formatFloat (name := ['d', 'o', 'u', 'b', 'l', 'e']) (k := .double) e (fun _ => rfl) (by decide)
    rw [formatType, parseType_of_parseDesc hdesc]
    rfl

/-! ## The TD of a FieldType -/

theorem checkIntTd_typeOpd (mk : Nat → Endian → Container → FieldType) (e : Endian) {n : Nat} {c : Container}
    (hpos : 1 ≤ n) (hle : n ≤ 64) (hfits : n ≤ c.bits) :
    checkIntTd mk ⟨BitVec.ofNat 7 n, c.code, e⟩ = .ok (mk n e c) := by
  have hn : (BitVec.ofNat 7 n).toNat = n := by rw [BitVec.toNat_ofNat]; omega
  have hbits : 8 * 2 ^ c.code.toNat = c.bits := by cases c <;> rfl
  simp only [checkIntTd, hn, hbits, container_ofCode_code]
  rw [if_neg (by omega), if_neg (by omega)]

theorem checkTd_typeOpd {ft : FieldType} (h : ft.wellFormed = true) : checkTd ft.kind ft.typeOpd = .ok ft := by
  obtain ⟨hpos, hle, hfits⟩ := (wellFormed_iff ft).mp h
  cases ft with
  | uint n e c => exact checkIntTd_typeOpd .uint e hpos hle hfits
  | int n e c => exact checkIntTd_typeOpd .int e hpos hle hfits
  | float e | double e => rfl

/-- Settles O9: the formatter writes the four parts that the grammar reads, and omits the container only where the
default is the same. -/
theorem descriptorTextRoundTrip : Obligations.DescriptorTextRoundTrip :=
  fun _ h => ⟨parseType_formatType h, checkTd_typeOpd h⟩

end Sys2Proof.Proofs
end

section
/-! PROOF. Assembler lines of PULLV and DEC (spec/30_encoding.md R52): a line that ends in a formatted descriptor falls
into its mnemonic and that descriptor. -/

namespace Sys2Proof.Proofs

open Sys2Proof.Machine Sys2Proof.Laws

/-! ## Cutting a line -/

/-- Blanks at the two ends are cut, and nothing else. -/
theorem trim_padded {pre cs post : List Char} (hpre : ∀ c ∈ pre, isBlank c = true)
    (hpost : ∀ c ∈ post, isBlank c = true) (hne : cs ≠ []) (hfirst : isBlank (cs.head hne) = false)
    (hlast : isBlank (cs.getLast hne) = false) : trim (pre ++ (cs ++ post)) = cs := by
  have hfront : (cs ++ post).dropWhile isBlank = cs ++ post := by
    obtain ⟨c, cs, rfl⟩ := List.exists_cons_of_ne_nil hne
    exact List.dropWhile_cons_of_neg (by simpa using hfirst)
  have hback : cs.reverse.dropWhile isBlank = cs.reverse := by
    rw [List.dropWhile_eq_self_iff]
    intro hlen
    simpa [List.getLast_eq_getElem] using hlast
  rw [trim, List.dropWhile_append_of_pos hpre, hfront, List.reverse_append,
    List.dropWhile_append_of_pos (by simpa using hpost), hback, List.reverse_reverse]

/-- A text without the separator is one piece. -/
theorem splitAtChar_of_not_mem {sep : Char} {cs : List Char} (h : sep ∉ cs) : splitAtChar sep cs = [cs] := by
  induction cs with
  | nil => rfl
  | cons c cs ih =>
    obtain ⟨hc, hcs⟩ := not_or.mp (List.mem_cons.not.mp h)
    simp only [splitAtChar, ih hcs, if_neg (Ne.symm hc)]

/-! ## Descriptors hold no separator -/

theorem descChar_ne {c d : Char} (h : descChar c = true) (hd : descChar d = false) : c ≠ d := by
  rintro rfl
  simp [h] at hd

theorem descChar_not_blank {c : Char} (h : descChar c = true) : isBlank c = false := by
  simp only [isBlank, Bool.or_eq_false_iff, beq_eq_false_iff_ne]
  exact ⟨⟨descChar_ne h (by decide), descChar_ne h (by decide)⟩, descChar_ne h (by decide)⟩

theorem desc_not_mem {ds : List Char} (hds : ds.all descChar = true) {d : Char} (hd : descChar d = false) : d ∉ ds :=
  fun hmem => descChar_ne (List.all_eq_true.mp hds d hmem) hd rfl

theorem trim_padded_desc {pre ds post : List Char} (hds : ds.all descChar = true) (hne : ds ≠ [])
    (hpre : ∀ c ∈ pre, isBlank c = true) (hpost : ∀ c ∈ post, isBlank c = true) : trim (pre ++ (ds ++ post)) = ds := by
  have hchar := List.all_eq_true.mp hds
  exact trim_padded hpre hpost hne (descChar_not_blank (hchar _ (List.head_mem hne)))
    (descChar_not_blank (hchar _ (List.getLast_mem hne)))

/-! ## A line of a mnemonic and a descriptor -/

/-- A character of a mnemonic, in either case: part of no blank and no comment. -/
def nameChar (c : Char) : Bool := descChar c.toLower

theorem nameChar_not_blank {c : Char} (h : nameChar c = true) : isBlank c = false := by
  by_contra hb
  simp only [isBlank, Bool.not_eq_false, Bool.or_eq_true, beq_iff_eq] at hb
  rcases hb with (rfl | rfl) | rfl <;> exact absurd h (by decide)

theorem nameChar_ne_semicolon {c : Char} (h : nameChar c = true) : c ≠ ';' := by
  rintro rfl
  exact absurd h (by decide)

theorem blank_ne_semicolon {c : Char} (h : isBlank c = true) : c ≠ ';' := by
  rintro rfl
  exact absurd h (by decide)

section
variable {name ds post : List Char} (hname : name.all nameChar = true) (hname_ne : name ≠ [])
  (hds : ds.all descChar = true) (hds_ne : ds ≠ []) (hpost : ∀ c ∈ post, isBlank c = true)
include hname hds hpost

theorem takeWhile_comment {comment : List Char} (hcomment : comment.takeWhile (· ≠ ';') = []) :
    (name ++ ' ' :: ds ++ post ++ comment).takeWhile (· ≠ ';') = name ++ ' ' :: ds ++ post := by
  rw [List.takeWhile_append_of_pos, hcomment, List.append_nil]
  intro c hc
  simp only [List.mem_append, List.mem_cons] at hc
  rw [decide_eq_true_eq]
  rcases hc with (hc | rfl | hc) | hc
  · exact nameChar_ne_semicolon (List.all_eq_true.mp hname c hc)
  · decide
  · exact descChar_ne (List.all_eq_true.mp hds c hc) (by decide)
  · exact blank_ne_semicolon (hpost c hc)

include hname_ne hds_ne

theorem trim_line : trim (name ++ ' ' :: ds ++ post) = name ++ ' ' :: ds := by
  refine trim_padded (pre := []) (by simp) hpost (by simp) ?_ ?_
  · rw [List.head_append_of_ne_nil hname_ne]
    exact nameChar_not_blank (List.all_eq_true.mp hname _ (List.head_mem hname_ne))
  · rw [List.getLast_append_of_ne_nil _ (List.cons_ne_nil _ _), List.getLast_cons hds_ne]
    exact descChar_not_blank (List.all_eq_true.mp hds _ (List.getLast_mem hds_ne))

/-- A mnemonic in either case, a blank, a descriptor and a comment: the one operand is the descriptor. -/
theorem assembleLine_desc {comment : List Char} (hcomment : comment.takeWhile (· ≠ ';') = []) {p : String × AsmOp}
    (hop : asmOps.find? (fun p => p.1.toList == name.map Char.toLower) = some p) :
    assembleLine (name ++ ' ' :: ds ++ post ++ comment) = (assembleOp p.2 [ds]).map some := by
  have hlower : (name ++ ' ' :: ds).map Char.toLower = name.map Char.toLower ++ ' ' :: ds := by
    rw [List.map_append, List.map_cons, map_toLower_of_descChar hds]
    rfl
  have hname_all : ∀ c ∈ name.map Char.toLower, (!isBlank c) = true := by
    intro c hc
    obtain ⟨d, hd, rfl⟩ := List.mem_map.mp hc
    rw [descChar_not_blank (List.all_eq_true.mp hname d hd)]
    rfl
  have hrest : trim (' ' :: ds) = ds := by
    simpa using trim_padded_desc (pre := [' ']) (post := []) hds hds_ne (by simp [isBlank]) (by simp)
  have hself : trim ds = ds := by
    simpa using trim_padded_desc (pre := []) (post := []) hds hds_ne (by simp) (by simp)
  have hpieces : (splitAtChar ',' ds).map trim = [ds] := by
    rw [splitAtChar_of_not_mem (desc_not_mem hds (by decide)), List.map_singleton, hself]
  have htake : (name.map Char.toLower ++ ' ' :: ds).takeWhile (fun c => !isBlank c) = name.map Char.toLower := by
    rw [List.takeWhile_append_of_pos hname_all]
    simp [isBlank]
  have hdrop : (name.map Char.toLower ++ ' ' :: ds).dropWhile (fun c => !isBlank c) = ' ' :: ds := by
    rw [List.dropWhile_append_of_pos hname_all]
    simp [isBlank]
  rw [assembleLine, takeWhile_comment hname hds hpost hcomment, trim_line hname hname_ne hds hds_ne hpost, hlower]
  simp [htake, hdrop, hop, hrest, hds_ne, hpieces]

end

theorem formatType_ne_nil (ft : FieldType) : formatType ft ≠ [] := by
  cases ft <;> simp [formatType, formatInt]

/-- Settles O11: the operand is read back as the type, and the mnemonic takes its row and TD from it. -/
theorem assemblerPicksRow : Obligations.AssemblerPicksRow := by
  intro ft h
  have hds := formatType_descChar ft
  have hne := formatType_ne_nil ft
  constructor
  · have hline := assembleLine_desc (name := ['P', 'U', 'L', 'L', 'V']) (post := []) (comment := [])
      (p := ("pullv", .pullv)) (by decide) (by decide) hds hne (by simp) rfl (by decide)
    rw [List.append_nil, List.append_nil] at hline
    simpa [assembleOp, parseType_formatType h, Except.map] using hline
  · have hline := assembleLine_desc (name := ['d', 'e', 'c']) (post := [' ']) (comment := [';', 'x'])
      (p := ("dec", .dec)) (by decide) (by decide) hds hne (by simp [isBlank]) rfl (by decide)
    simpa [assembleOp, parseType_formatType h, Except.map] using hline

end Sys2Proof.Proofs
end

section
/-! PROOF. The push commands (spec/40_bitbuffer_push.md): what a push that fits does to the whole state (R60 to R65),
that it fits exactly when the room is there (R66), and that two pushes of one order are one push of both (R65). -/

namespace Sys2Proof.Proofs

open Sys2Proof.Machine Sys2Proof.Laws

/-! ## A push that fits (R60 to R65) -/

/-- What PUSHB and PUSHV do when they push `n` bits of `v`: OK is answered and nothing but the buffer changes. -/
def PushesInto (e : Endian) (i : Instr) (s : State) (n v : Nat) : Prop :=
  ∃ b, exec i s = .next { s with buf := b, responses := s.responses ++ [⟨.ok, none, 0⟩] } ∧ Pushed e s.buf b n v

/-- A PUSHB with 8 bits free pushes and answers OK. -/
theorem pushByte_of_room {s : State} (hroom : s.buf.avail + 8 ≤ 64) (e : Endian) (imm8 : Byte) :
    pushByte e imm8 s = (s.setBuf (s.buf.push e (imm8.setWidth 64) 8)).respond .ok none 0 := by
  rcases pushByte_cases e imm8 s with ⟨hfull, -⟩ | ⟨-, h⟩
  · omega
  · exact h

theorem exec_pushb_of_room {s : State} (hroom : s.buf.avail + 8 ≤ 64) (e : Endian) (imm8 : Byte) :
    PushesInto e (.pushb e imm8) s 8 imm8.toNat := by
  have hbyte : (imm8.setWidth 64).toNat = imm8.toNat := BitVec.toNat_setWidth_of_le (by decide)
  refine ⟨s.buf.push e (imm8.setWidth 64) 8, ?_, hbyte ▸ push_pushed e s.buf (imm8.setWidth 64) hroom⟩
  rw [exec_pushb, pushByte_of_room hroom]
  rfl

theorem exec_pushv_of_room {n : BitVec 7} {s : State} (hpos : 1 ≤ n.toNat) (hroom : s.buf.avail + n.toNat ≤ 64)
    (e : Endian) (data : Word) : PushesInto e (.pushv e n data) s n.toNat data.toNat := by
  refine ⟨s.buf.push e data n.toNat, ?_, push_pushed e s.buf data hroom⟩
  rw [exec_pushv, pushValue_of_room hpos hroom]
  rfl

/-- Settles O27: one rule for PUSHB, read at each order. -/
theorem pushByteResult : Obligations.PushByteResult :=
  fun imm8 _ hroom => ⟨exec_pushb_of_room hroom .big imm8, exec_pushb_of_room hroom .little imm8⟩

/-- Settles O28: one rule for PUSHV, read at each order. -/
theorem pushValueResult : Obligations.PushValueResult := by
  intro n data s hpos hroom
  have hroom' : s.buf.avail + n.toNat ≤ 64 := by omega
  exact ⟨exec_pushv_of_room hpos hroom' .big data, exec_pushv_of_room hpos hroom' .little data⟩

/-! ## The capacity law (R66) -/

/-- `t` is `s` with one more response, which is OK with no Value and the data `d`. -/
def AnsweredOk (s t : State) (d : Word) : Prop := t.responses = s.responses ++ [⟨.ok, none, d⟩]

theorem raise_not_answeredOk {s : State} {x : FaultCause} {i d : Word} : ¬ AnsweredOk s (s.raise x i) d := by
  simp [AnsweredOk]

theorem pushValue_answeredOk_iff (e : Endian) (n : BitVec 7) (data : Word) (s : State) :
    AnsweredOk s (pushValue e n data s) 0 ↔ 1 ≤ n.toNat ∧ s.buf.avail + n.toNat ≤ 64 := by
  rcases pushValue_cases e n data s with ⟨hzero, h⟩ | ⟨-, hfull, h⟩ | ⟨hpos, hroom, h⟩ <;> rw [h]
  · exact iff_of_false raise_not_answeredOk (by omega)
  · exact iff_of_false raise_not_answeredOk (by omega)
  · exact iff_of_true rfl ⟨hpos, hroom⟩

theorem pushByte_answeredOk_iff (e : Endian) (imm8 : Byte) (s : State) :
    AnsweredOk s (pushByte e imm8 s) 0 ↔ s.buf.avail + 8 ≤ 64 := by
  rcases pushByte_cases e imm8 s with ⟨hfull, h⟩ | ⟨hroom, h⟩ <;> rw [h]
  · exact iff_of_false raise_not_answeredOk (by omega)
  · exact iff_of_true rfl hroom

theorem encodeField_answeredOk_iff {k : Kind} {t : TypeOpd} {s : State} (hl : LegalTd k t) (ha : AlignedFor k s.buf)
    (data : Word) :
    (∃ d, AnsweredOk s (encodeField k t data s) d) ↔ s.buf.avail + requestWidth k t ≤ 64 := by
  obtain ⟨ft, hcheck, -, -, hn, -⟩ := checkField_legal hl ha
  rcases encodeField_cases k t data s with ⟨x, hx, -⟩ | ⟨ft', hft', ⟨hfull, h⟩ | ⟨hroom, h⟩⟩
  · cases hcheck.symm.trans hx
  · cases hcheck.symm.trans hft'
    rw [h]
    exact iff_of_false (fun ⟨_, hok⟩ => raise_not_answeredOk hok) (by omega)
  · cases hcheck.symm.trans hft'
    rw [h]
    exact iff_of_true ⟨_, rfl⟩ (by omega)

/-- A command that always answers is asked only about its one next state. -/
theorem exists_next_iff {i : Instr} {s t : State} (h : exec i s = .next t) (P : State → Prop) :
    (∃ u, exec i s = .next u ∧ P u) ↔ P t := by
  simp [h]

/-- Settles O29: for each of the three commands, the condition of its push over the naturals is R66's over the
integers. -/
theorem capacityLaw : Obligations.CapacityLaw := by
  intro e s
  refine ⟨fun n data => ?_, fun imm8 => ?_, fun k t data hl ha => ?_⟩
  · rw [exists_next_iff (exec_pushv e n data s)]
    exact (pushValue_answeredOk_iff e n data s).trans (by omega)
  · rw [exists_next_iff (exec_pushb e imm8 s)]
    exact (pushByte_answeredOk_iff e imm8 s).trans (by omega)
  · simp only [exists_and_left]
    rw [exists_next_iff (exec_enc k t data s)]
    exact (encodeField_answeredOk_iff hl ha data).trans (by omega)

/-! ## Two pushes of one order (R65) -/

/-- The value of `p + q` bits that a push of `a` in `p` bits and then of `c` in `q` bits amounts to. -/
def joined (e : Endian) (p q a c : Nat) : Nat :=
  match e with
  | .big => a * 2 ^ q + c
  | .little => c * 2 ^ p + a

section
variable {e : Endian} {p q a c : Nat} {b b1 b2 b3 : BitBuffer}

theorem joined_lt (ha : a < 2 ^ p) (hc : c < 2 ^ q) : joined e p q a c < 2 ^ (p + q) := by
  cases e with
  | big =>
    rw [joined, Nat.mul_comm a, Nat.pow_add]
    exact Nat.mul_add_lt_mul_of_lt_of_lt ha hc
  | little =>
    rw [joined, Nat.mul_comm c, Nat.add_comm p, Nat.pow_add]
    exact Nat.mul_add_lt_mul_of_lt_of_lt hc ha

/-- Pushes of one order compose. -/
theorem pushed_trans (ha : a < 2 ^ p) (hc : c < 2 ^ q) (h1 : Pushed e b b1 p a) (h2 : Pushed e b1 b2 q c) :
    Pushed e b b2 (p + q) (joined e p q a c) := by
  obtain ⟨havail1, hcontent1⟩ := h1
  obtain ⟨havail2, hcontent2⟩ := h2
  refine ⟨by omega, ?_⟩
  rw [Nat.mod_eq_of_lt (joined_lt ha hc)]
  rw [Nat.mod_eq_of_lt ha] at hcontent1
  rw [Nat.mod_eq_of_lt hc] at hcontent2
  cases e with
  | big =>
    calc b2.content.toNat
        = (b.content.toNat * 2 ^ p + a) * 2 ^ q + c := by rw [hcontent2, hcontent1]
      _ = b.content.toNat * 2 ^ (p + q) + (a * 2 ^ q + c) := by ring
  | little =>
    calc b2.content.toNat
        = b.content.toNat + a * 2 ^ b.avail + c * 2 ^ (b.avail + p) := by rw [hcontent2, hcontent1, havail1]
      _ = b.content.toNat + (c * 2 ^ p + a) * 2 ^ b.avail := by ring

/-- A push determines the count and the content. -/
theorem pushed_sameLive {n v : Nat} (h2 : Pushed e b b2 n v) (h3 : Pushed e b b3 n v) : SameLive b2 b3 :=
  ⟨h2.1.trans h3.1.symm, BitVec.eq_of_toNat_eq (h2.2.trans h3.2.symm)⟩

end

/-- What a PUSHV that fits has done to the buffer of its next state. -/
theorem pushed_of_exec_pushv {e : Endian} {n : BitVec 7} {data : Word} {s t : State} (hpos : 1 ≤ n.toNat)
    (hroom : s.buf.avail + n.toNat ≤ 64) (h : exec (.pushv e n data) s = .next t) :
    Pushed e s.buf t.buf n.toNat data.toNat := by
  obtain ⟨b, hexec, hb⟩ := exec_pushv_of_room hpos hroom e data
  cases h.symm.trans hexec
  exact hb

/-- Settles O31: the two pushes compose to a push of the joined value, which fits DATA. -/
theorem pushesAssociate : Obligations.PushesAssociate := by
  intro e p q r a b s s1 s2 s3 hp hq hr hroom ha hb hexec1 hexec2 hexec3
  have hlt : joined e p.toNat q.toNat a.toNat b.toNat < 2 ^ r.toNat := hr ▸ joined_lt ha hb
  have hfits : 2 ^ r.toNat ≤ 2 ^ 64 := Nat.pow_le_pow_right (by decide) (by omega)
  have h1 := pushed_of_exec_pushv hp (by omega) hexec1
  have havail1 : s1.buf.avail = s.buf.avail + p.toNat := h1.1
  have h2 := pushed_of_exec_pushv hq (by omega) hexec2
  have h3 : Pushed e s.buf s3.buf r.toNat (BitVec.ofNat 64 (joined e p.toNat q.toNat a.toNat b.toNat)).toNat :=
    pushed_of_exec_pushv (by omega) hroom hexec3
  rw [BitVec.toNat_ofNat, Nat.mod_eq_of_lt (by omega), hr] at h3
  obtain ⟨havail, hcontent⟩ := pushed_sameLive (pushed_trans ha hb h1 h2) h3
  exact ⟨havail, hcontent⟩

end Sys2Proof.Proofs
end

section
/-! PROOF. The pull commands (spec/41_bitbuffer_pull.md): what PULLV does with enough bits staged and with too few (R70
to R76), what DRAIN writes (R78, R79), and that fields pushed in one order come back in the order pushed (R80). -/

namespace Sys2Proof.Proofs

open Sys2Proof.Machine Sys2Proof.Laws

/-! ## PULLV (R70 to R76) -/

/-- What PULLV does when it pulls: the field's bits leave the buffer, the Value they stand for is answered, and nothing
else changes. -/
def PullsValue (k : Kind) (t : TypeOpd) (s : State) : Prop :=
  ∃ b v g p, Pulled t.e s.buf b (requestWidth k t) v ∧
    Interpreted s.cfg.intNarrowExt k (requestWidth k t) v g p ∧
    exec (.pullv k t) s = .next { s with buf := b, responses := s.responses ++ [⟨.ok, some g, p⟩] }

section
variable {k : Kind} {t : TypeOpd} {s : State}

/-- A PULLV whose checks pass pulls the FieldType of its TD. -/
theorem exec_pullv_of_legal (hl : LegalTd k t) (ha : AlignedFor k s.buf) :
    ∃ ft, ft.kind = k ∧ ft.endian = t.e ∧ ft.numBits = requestWidth k t ∧
      exec (.pullv k t) s = .next (s.pullField ft) := by
  obtain ⟨ft, hcheck, hk, he, hn, -⟩ := checkField_legal hl ha
  refine ⟨ft, hk, he, hn, ?_⟩
  rcases pullValue_cases k t s with ⟨x, hx, -⟩ | ⟨ft', hft', h⟩
  · cases hcheck.symm.trans hx
  · cases hcheck.symm.trans hft'
    rw [exec_pullv, h]

theorem exec_pullv_of_staged (hl : LegalTd k t) (ha : AlignedFor k s.buf)
    (hstaged : requestWidth k t ≤ s.buf.avail) : PullsValue k t s := by
  obtain ⟨ft, rfl, he, hn, hexec⟩ := exec_pullv_of_legal hl ha
  obtain ⟨hpos, hle, -⟩ := numBits_pos_of_legal hl
  rw [PullsValue, hexec, ← he]
  rw [← hn] at hpos hle hstaged ⊢
  rcases pullField_cases s ft with ⟨hfew, -⟩ | ⟨-, h⟩
  · omega
  · exact ⟨_, _, _, _, extract_pulled ft.endian s.buf hstaged,
      interpret_interpreted s.cfg ft _ hpos hle (extract_lt ..), congrArg Host.Outcome.next h⟩

theorem exec_pullv_of_few (hl : LegalTd k t) (ha : AlignedFor k s.buf)
    (hfew : s.buf.avail < requestWidth k t) : exec (.pullv k t) s = .next (s.raise .underflow 0) := by
  obtain ⟨ft, -, -, hn, hexec⟩ := exec_pullv_of_legal hl ha
  rcases pullField_cases s ft with ⟨-, h⟩ | ⟨hstaged, -⟩
  · rw [hexec, h]
  · omega

end

/-- Settles O32: the field check passes, and the count decides between the two ends of a pull. -/
theorem pullValueResult : Obligations.PullValueResult :=
  fun _ _ _ hl ha => ⟨exec_pullv_of_staged hl ha, exec_pullv_of_few hl ha⟩

/-! ## DRAIN (R78, R79) -/

/-- Settles O34: the two cases of the drain to OUT. -/
theorem drainResult : Obligations.DrainResult := by
  intro e s
  refine ⟨fun _ hwhole => ?_, fun hnone => ?_⟩
  · rcases drainOut_cases s e with ⟨-, b, hb, h⟩ | ⟨hoff, -⟩
    · exact ⟨b, hb, by rw [exec_drain, h]; rfl⟩
    · exact absurd hwhole hoff
  · rw [exec_drain, drainOut_nothing s e hnone]
    rfl

/-! ## First in, first out (R80) -/

/-- The bits of the fields of a list. -/
def totalWidth (fs : List (BitVec 7 × Word)) : Nat := (fs.map fun f => f.1.toNat).sum

/-- The number that fields pushed in one order amount to. -/
def joinedFields (e : Endian) : List (BitVec 7 × Word) → Nat
  | [] => 0
  | f :: fs => joined e f.1.toNat (totalWidth fs) (f.2.toNat % 2 ^ f.1.toNat) (joinedFields e fs)

theorem totalWidth_cons (f : BitVec 7 × Word) (fs : List (BitVec 7 × Word)) :
    totalWidth (f :: fs) = f.1.toNat + totalWidth fs := by
  simp [totalWidth]

theorem joinedFields_lt (e : Endian) (fs : List (BitVec 7 × Word)) : joinedFields e fs < 2 ^ totalWidth fs := by
  induction fs with
  | nil => exact Nat.one_pos
  | cons f fs ih =>
    rw [totalWidth_cons]
    exact joined_lt (Nat.mod_lt _ (Nat.two_pow_pos _)) ih

section
variable {e : Endian} {b b' : BitBuffer} {n v : Nat}

/-- A push sees its value only modulo 2^n. -/
theorem pushed_mod (h : Pushed e b b' n v) : Pushed e b b' n (v % 2 ^ n) := by
  rwa [Pushed.eq_def, Nat.mod_mod]

theorem pushed_nothing (e : Endian) (b : BitBuffer) : Pushed e b b 0 0 := by
  cases e
  · exact ⟨rfl, by simp only [Nat.pow_zero, Nat.mul_one, Nat.zero_mod, Nat.add_zero]⟩
  · exact ⟨rfl, by simp only [Nat.zero_mod, Nat.zero_mul, Nat.add_zero]⟩

/-- What is pushed into an empty buffer is its content. -/
theorem content_of_pushed_empty (h : Pushed e b b' n v) (hempty : b.avail = 0) (hv : v < 2 ^ n) :
    b'.content.toNat = v := by
  obtain ⟨-, hcontent⟩ := h
  rw [content_empty b hempty, hempty, Nat.mod_eq_of_lt hv] at hcontent
  cases e <;> simpa using hcontent

/-- A pull of `p` bits takes apart what a push of `p` bits and then of `q` bits put together. -/
theorem pulled_joined {p q a c : Nat} {x : Word} (ha : a < 2 ^ p) (hc : c < 2 ^ q) (h : Pulled e b b' p x)
    (havail : b.avail = p + q) (hcontent : b.content.toNat = joined e p q a c) :
    x.toNat = a ∧ b'.avail = q ∧ b'.content.toNat = c := by
  obtain ⟨havail', hpull⟩ := h
  rw [hcontent, show b.avail - p = q by omega] at hpull
  cases e with
  | big =>
    obtain ⟨hx, hrest, -⟩ := hpull
    have hjoin : c + 2 ^ q * a = joined .big p q a c := by rw [joined]; ring
    obtain ⟨hdiv, hmod⟩ := (Nat.div_mod_unique (Nat.two_pow_pos q)).mpr ⟨hjoin, hc⟩
    exact ⟨hx.trans hdiv, by omega, hrest.trans hmod⟩
  | little =>
    obtain ⟨hx, hrest⟩ := hpull
    have hjoin : a + 2 ^ p * c = joined .little p q a c := by rw [joined]; ring
    obtain ⟨hdiv, hmod⟩ := (Nat.div_mod_unique (Nat.two_pow_pos p)).mpr ⟨hjoin, ha⟩
    exact ⟨hx.trans hmod, by omega, hrest.trans hdiv⟩

end

/-- A command that the encoder has built runs, when no fault is latched. -/
theorem step_encoded {s : State} {i : Instr} {rest : List Command} (hi : i.wellFormed = true) (hf : s.fault = 0)
    (h : s.commands = encode i :: rest) : step s = exec i (s.setCommands rest) :=
  step_run h (.inl hf) (decodeOfEncode i hi)

/-- `s` after a part of its program that raised no fault and left the streams alone: the buffer is `b`, the commands
`rest` still wait, and the responses `rs` are answered. -/
def ranTo (s : State) (b : BitBuffer) (rest : List Command) (rs : List Response) : State :=
  { s with buf := b, commands := rest, responses := s.responses ++ rs }

theorem ranTo_ranTo (s : State) (b b' : BitBuffer) (rest rest' : List Command) (rs rs' : List Response) :
    ranTo (ranTo s b rest rs) b' rest' rs' = ranTo s b' rest' (rs ++ rs') := by
  simp [ranTo]

theorem ranTo_refl (s : State) : ranTo s s.buf s.commands [] = s := by
  simp [ranTo]

/-- What comes back of a field: the bits of DATA that were pushed. -/
def fieldValue (f : BitVec 7 × Word) : Word := BitVec.ofNat 64 (f.2.toNat % 2 ^ f.1.toNat)

/-- The PUSHV commands of a list of fields. -/
def pushCommands (e : Endian) (fs : List (BitVec 7 × Word)) : List Command :=
  fs.map fun f => encode (.pushv e f.1 f.2)

/-- The PULLV.U commands of a list of fields. -/
def pullCommands (e : Endian) (fs : List (BitVec 7 × Word)) : List Command :=
  fs.map fun f => encode (.pullv .uint ⟨f.1, 3, e⟩)

/-- The PUSHV commands of a list of fields run without a fault and push the fields as one number. -/
theorem run_pushCommands (e : Endian) (fs : List (BitVec 7 × Word)) (rest : List Command) {s : State}
    (hf : s.fault = 0) (hpos : ∀ f ∈ fs, 1 ≤ f.1.toNat) (hroom : s.buf.avail + totalWidth fs ≤ 64)
    (hc : s.commands = pushCommands e fs ++ rest) :
    ∃ b, core.run fs.length s = .next (ranTo s b rest (fs.map fun _ => ⟨.ok, none, 0⟩)) ∧
      Pushed e s.buf b (totalWidth fs) (joinedFields e fs) := by
  induction fs generalizing s with
  | nil =>
    obtain rfl : s.commands = rest := hc
    exact ⟨s.buf, congrArg Host.Outcome.next (ranTo_refl s).symm, pushed_nothing e s.buf⟩
  | cons f fs ih =>
    rw [totalWidth_cons] at hroom ⊢
    obtain ⟨hposf, hposfs⟩ := List.forall_mem_cons.mp hpos
    obtain ⟨b1, hexec, hb1⟩ :=
      exec_pushv_of_room (s := s.setCommands (pushCommands e fs ++ rest)) hposf (by rw [setCommands_buf]; omega) e f.2
    have hstep : step s = .next (ranTo s b1 (pushCommands e fs ++ rest) [⟨.ok, none, 0⟩]) :=
      (step_encoded (by cases e <;> rfl) hf hc).trans hexec
    have havail1 : b1.avail = s.buf.avail + f.1.toNat := hb1.1
    obtain ⟨b, hrun, hb⟩ := ih (s := ranTo s b1 (pushCommands e fs ++ rest) [⟨.ok, none, 0⟩]) hf hposfs
      (show b1.avail + totalWidth fs ≤ 64 by omega) rfl
    refine ⟨b, ?_, pushed_trans (Nat.mod_lt _ (Nat.two_pow_pos _)) (joinedFields_lt e fs) (pushed_mod hb1) hb⟩
    rw [List.length_cons, run_succ _ hstep, hrun, ranTo_ranTo]
    rfl

/-- A PULLV.U pulls the field that was pushed first and leaves the others. -/
theorem exec_pullvU_of_joined (e : Endian) (f : BitVec 7 × Word) (fs : List (BitVec 7 × Word)) {s : State}
    (hpos : 1 ≤ f.1.toNat) (hroom : totalWidth (f :: fs) ≤ 64) (havail : s.buf.avail = totalWidth (f :: fs))
    (hcontent : s.buf.content.toNat = joinedFields e (f :: fs)) :
    ∃ b g, exec (.pullv .uint ⟨f.1, 3, e⟩) s = .next { s with
        buf := b, responses := s.responses ++ [⟨.ok, some g, fieldValue f⟩] } ∧
      b.avail = totalWidth fs ∧ b.content.toNat = joinedFields e fs := by
  rw [totalWidth_cons] at hroom havail
  have hle : f.1.toNat ≤ 64 := by omega
  obtain ⟨b, v, g, p, hpull, ⟨-, rfl⟩, hexec⟩ :=
    exec_pullv_of_staged (k := .uint) (t := ⟨f.1, 3, e⟩) (s := s) ⟨hpos, hle, hle⟩ trivial
      (show f.1.toNat ≤ s.buf.avail by omega)
  obtain ⟨hv, havail', hcontent'⟩ :=
    pulled_joined (Nat.mod_lt _ (Nat.two_pow_pos f.1.toNat)) (joinedFields_lt e fs) hpull havail hcontent
  refine ⟨b, g, ?_, havail', hcontent'⟩
  rw [hexec, fieldValue, ← hv, BitVec.ofNat_toNat, BitVec.setWidth_eq]

/-- The PULLV.U commands of fields staged as one number run without a fault, empty the buffer and answer the fields in
order. -/
theorem run_pullCommands (e : Endian) (fs : List (BitVec 7 × Word)) {s : State} (hf : s.fault = 0)
    (hpos : ∀ f ∈ fs, 1 ≤ f.1.toNat) (hroom : totalWidth fs ≤ 64) (havail : s.buf.avail = totalWidth fs)
    (hcontent : s.buf.content.toNat = joinedFields e fs) (hc : s.commands = pullCommands e fs) :
    ∃ b rs, core.run fs.length s = .next (ranTo s b [] rs) ∧ b.avail = 0 ∧
      rs.map Response.data = fs.map fieldValue := by
  induction fs generalizing s with
  | nil => exact ⟨s.buf, [], congrArg Host.Outcome.next (hc ▸ ranTo_refl s).symm, havail, rfl⟩
  | cons f fs ih =>
    obtain ⟨hposf, hposfs⟩ := List.forall_mem_cons.mp hpos
    obtain ⟨b1, g, hexec, havail1, hcontent1⟩ :=
      exec_pullvU_of_joined e f fs (s := s.setCommands (pullCommands e fs)) hposf hroom havail hcontent
    have hstep : step s = .next (ranTo s b1 (pullCommands e fs) [⟨.ok, some g, fieldValue f⟩]) :=
      (step_encoded rfl hf hc).trans hexec
    rw [totalWidth_cons] at hroom
    obtain ⟨b, rs, hrun, hb, hrs⟩ := ih (s := ranTo s b1 (pullCommands e fs) [⟨.ok, some g, fieldValue f⟩])
      hf hposfs (by omega) havail1 hcontent1 rfl
    refine ⟨b, ⟨.ok, some g, fieldValue f⟩ :: rs, ?_, hb, ?_⟩
    · rw [List.length_cons, run_succ _ hstep, hrun, ranTo_ranTo]
      rfl
    · rw [List.map_cons, List.map_cons, hrs]

/-- Settles O35: the pushes stage the fields as one number, and the pulls take it apart from the same end. -/
theorem firstInFirstOut : Obligations.FirstInFirstOut := by
  intro e fs s hf hempty hpos hroom hc
  have hroom' : s.buf.avail + totalWidth fs ≤ 64 := by rw [hempty, Nat.zero_add]; exact hroom
  obtain ⟨b1, hrun1, hb1⟩ := run_pushCommands e fs (pullCommands e fs) hf hpos hroom' hc
  have havail1 : b1.avail = totalWidth fs := by rw [hb1.1, hempty, Nat.zero_add]
  have hcontent1 := content_of_pushed_empty hb1 hempty (joinedFields_lt e fs)
  obtain ⟨b, rs, hrun, hb, hrs⟩ :=
    run_pullCommands e fs (s := ranTo s b1 (pullCommands e fs) (fs.map fun _ => ⟨.ok, none, 0⟩)) hf hpos hroom havail1
      hcontent1 rfl
  rw [ranTo_ranTo] at hrun
  refine ⟨ranTo s b [] (fs.map (fun _ => ⟨.ok, none, 0⟩) ++ rs), ?_, hf, hb, ?_⟩
  · rw [runProgram, hc, List.length_append, List.length_map, List.length_map, run_add _ _ hrun1]
    exact hrun
  · simp only [ranTo, List.map_append, List.map_map, hrs, List.append_assoc]
    rfl

end Sys2Proof.Proofs
end

section
/-! PROOF. The query commands (spec/42_bitbuffer_query.md R85 to R89): the data each one answers; nothing else changes. -/

namespace Sys2Proof.Proofs

open Sys2Proof.Machine Sys2Proof.Laws

theorem empty_iff (b : BitBuffer) : b.empty = true ↔ b.avail = 0 := beq_iff_eq

/-- A flag as data, by what the flag says (R48). -/
theorem flagWord_of_iff {f : Bool} {p : Prop} [Decidable p] (h : f = true ↔ p) : flagWord f = if p then 1 else 0 :=
  if_congr h rfl rfl

/-- The word of a count of bits is that count (R89). -/
theorem wordOfCount_toNat {n : Nat} (h : n ≤ 64) : (BitVec.ofNat 64 n).toNat = n := by
  rw [BitVec.toNat_ofNat, Nat.mod_eq_of_lt (by omega)]

/-- Settles O36: each query is one response, whose data the lemmas on flags, masks and the content give. -/
theorem queryResult : Obligations.QueryResult := by
  intro s
  refine ⟨?qempty, ?qalign, fun n hn => ⟨mask n.toNat, mask_toNat hn, rfl⟩,
    ⟨s.buf.content, content_toNat s.buf, rfl⟩, fun h => ⟨BitVec.ofNat 64 s.buf.avail, wordOfCount_toNat h, rfl⟩⟩
  case qempty =>
    rw [← flagWord_of_iff (empty_iff s.buf)]
    rfl
  case qalign =>
    rw [← flagWord_of_iff (aligned_iff s.buf)]
    rfl

end Sys2Proof.Proofs
end

section
/-! PROOF. What an Int field's Value says of the integer it came from (spec/43_fieldtype_value.md R98, R101, R105): the
number it stands for and `raw64`, in two's complement. -/

namespace Sys2Proof.Proofs

open Sys2Proof.Machine Sys2Proof.Laws

/-! ## Two's complement -/

/-- `twosComplement` is the signed reading of a bit vector. -/
theorem twosComplement_toNat {n : Nat} (hn : 1 ≤ n) (x : BitVec n) : twosComplement n x.toNat = x.toInt := by
  have hpow : (2 : Nat) ^ n = 2 ^ (n - 1) * 2 := (Nat.two_pow_pred_mul_two hn).symm
  rw [BitVec.toInt_eq_toNat_cond, twosComplement]
  push_cast
  by_cases htop : 2 ^ (n - 1) ≤ x.toNat
  · rw [if_pos htop, if_neg (by omega)]
  · rw [if_neg htop, if_pos (by omega)]

/-- `signedOf`, which looks at the top bit, is `twosComplement`, which compares (R6). -/
theorem signedOf_eq_twosComplement {w : Nat} {p : Word} (hw : 1 ≤ w) (hp : p.toNat < 2 ^ w) :
    signedOf w p = twosComplement w p.toNat := by
  rw [signedOf, twosComplement, top_bit p w hw hp]
  simp only [decide_eq_true_eq]

/-- The low `n` bits of an integer's 64-bit word are its `n`-bit word. -/
theorem ofInt_and_mask_toNat {n : Nat} (hn : n ≤ 64) (z : Int) :
    (BitVec.ofInt 64 z &&& mask n).toNat = (BitVec.ofInt n z).toNat := by
  have hdvd : ((2 ^ n : Nat) : Int) ∣ (2 ^ 64 : Nat) := Int.natCast_dvd_natCast.mpr (Nat.pow_dvd_pow 2 hn)
  rw [and_mask_toNat, BitVec.toNat_ofInt, BitVec.toNat_ofInt]
  zify
  rw [Int.toNat_of_nonneg (by omega), Int.toNat_of_nonneg (Int.emod_nonneg _ (by positivity))]
  exact_mod_cast Int.emod_emod_of_dvd z hdvd

/-- An integer of the range of `n` bits is what its word, cut to `n` bits, stands for. -/
theorem twosComplement_ofInt_and_mask {n : Nat} {z : Int} (h1 : 1 ≤ n) (h64 : n ≤ 64) (hlo : -(2 ^ (n - 1)) ≤ z)
    (hhi : z < 2 ^ (n - 1)) : twosComplement n (BitVec.ofInt 64 z &&& mask n).toNat = z := by
  rw [ofInt_and_mask_toNat h64, twosComplement_toNat h1, BitVec.toInt_ofInt_eq_self h1 hlo hhi]

/-! ## The readings of a signed Value -/

/-- R98: a Value with an I tag stands for its payload in two's complement. -/
theorem number_of_signed {g : Tag} {p : Word} (hg : g.cls = .signed) (hp : p.toNat < 2 ^ g.width) :
    Value.number ⟨g, p⟩ = .int (twosComplement g.width p.toNat) := by
  rw [← signedOf_eq_twosComplement (Nat.le_trans (by decide) (tag_width_le g).1) hp]
  cases g with
  | i8 | i16 | i32 | i64 => rfl
  | u8 | u16 | u32 | u64 | f32 | f64 => cases hg

/-- R105: `raw64` of a Value with an I tag is the 64-bit word of the number it stands for. -/
theorem raw64_of_signed {g : Tag} {p : Word} (hg : g.cls = .signed) (hp : p.toNat < 2 ^ g.width) :
    Value.raw64 ⟨g, p⟩ = BitVec.ofInt 64 (twosComplement g.width p.toNat) := by
  obtain ⟨h8, h64⟩ := tag_width_le g
  have hraw : Value.raw64 ⟨g, p⟩ = sextTo 64 g.width p := by simp only [Value.raw64, hg]
  rw [hraw, ← (sextTo_spec p 64 g.width (by omega) h64 (by decide) hp).2, twosComplement_toNat (by decide),
    BitVec.ofInt_toInt]

/-- Settles O49: the cut word stands for the integer in `n` bits, `interpret` keeps that number, and the readings of a
signed Value give it back; `raw64` is the integer's whole word, and so has its low bits. -/
theorem signedValuesSurvive : Obligations.SignedValuesSurvive := by
  intro n e c z h1 h64 hlo hhi
  have hcut : (BitVec.ofInt 64 z &&& mask n).toNat < 2 ^ n :=
    (and_mask_toNat _ n).symm ▸ Nat.mod_lt _ (Nat.two_pow_pos n)
  obtain ⟨⟨hsigned, -⟩, hp, hnumber⟩ := interpret_interpreted ⟨.sign⟩ (.int n e c) _ h1 h64 hcut
  replace hnumber := hnumber.trans (twosComplement_ofInt_and_mask h1 h64 hlo hhi)
  refine ⟨_, rfl, ?number, ?raw64⟩
  case number => exact (number_of_signed hsigned hp).trans (congrArg Number.int hnumber)
  case raw64 =>
    have hraw := (raw64_of_signed hsigned hp).trans (congrArg (BitVec.ofInt 64) hnumber)
    exact congrArg (·.toNat % 2 ^ n) hraw

end Sys2Proof.Proofs
end

section
/-! PROOF. The commands of the field codec (spec/44_field_codec.md): DEC is PULLV once the buffer is not empty, a refill
makes it so (R110 to R115), ENC pushes and drains (R116 to R120, R123), FLUSH pads and drains (R121, R122). -/

namespace Sys2Proof.Proofs

open Sys2Proof.Machine Sys2Proof.Laws

theorem alignedFor_of_whole (k : Kind) {b : BitBuffer} (h : b.avail % 8 = 0) : AlignedFor k b := by
  cases k with
  | uint | int => trivial
  | float | double => exact h

theorem checkField_of_whole {k : Kind} {t : TypeOpd} {ft : FieldType} (hft : checkTd k t = .ok ft) {b : BitBuffer}
    (h : b.avail % 8 = 0) : checkField k t b = .ok ft := by
  simp [checkField, hft, BitBuffer.misaligned, h]

/-! ## DEC (R110 to R115) -/

/-- A refill of an empty buffer: the bytes read are the content, as one number in the field's order (R111). -/
theorem refill_of_empty {s : State} {k : Nat} (hempty : s.buf.avail = 0) (hk : k ≤ 8) (hin : k ≤ s.input.length)
    (e : Endian) :
    (s.refill k e).buf.avail = 8 * k ∧ (s.refill k e).buf.content.toNat = numberOf e (s.input.take k) := by
  have hlen : (s.input.take k).length = k := List.length_take_of_le hin
  have hcontent := pushBytes_content s.buf e (s.input.take k) (by omega)
  rw [content_empty s.buf hempty, hempty] at hcontent
  refine ⟨by rw [refill_buf, pushBytes_avail, hempty, hlen, Nat.zero_add], hcontent.trans ?_⟩
  cases e with
  | big => rw [Nat.zero_mul, Nat.zero_add]
  | little => rw [Nat.zero_add, Nat.pow_zero, Nat.mul_one]

section
variable {k : Kind} {t : TypeOpd} {s : State}

/-- DEC on a buffer that is not empty is PULLV (R110). -/
theorem exec_dec_of_staged (hstaged : s.buf.avail ≠ 0) : exec (.dec k t) s = exec (.pullv k t) s := by
  have hfull : s.buf.empty = false := Bool.eq_false_iff.mpr fun h => hstaged ((empty_iff s.buf).mp h)
  rw [exec_dec, exec_pullv]
  cases hcheck : checkField k t s.buf with
  | error x => rw [decodeField_of_checkField_error hcheck, pullValue_of_checkField_error hcheck]
  | ok ft => simp [decodeField, pullValue, hcheck, hfull]

/-- DEC on an empty buffer is PULLV after a refill of one container (R111). -/
theorem exec_dec_of_empty (hl : LegalTd k t) (hempty : s.buf.avail = 0) (hin : 2 ^ t.cc.toNat ≤ s.input.length) :
    exec (.dec k t) s = exec (.pullv k t) (s.refill (2 ^ t.cc.toNat) t.e) := by
  obtain ⟨ft, hft, -, he, -, hbytes⟩ := checkTd_legal hl
  have hle := container_bytes_le ft.container
  rw [← hbytes] at hin ⊢
  obtain ⟨havail, -⟩ := refill_of_empty hempty hle hin t.e
  have hshort : ¬ s.input.length < ft.container.bytes := by omega
  rw [exec_dec, exec_pullv]
  simp only [decodeField, pullValue, checkField_of_whole hft (show s.buf.avail % 8 = 0 by omega),
    checkField_of_whole hft (show (s.refill ft.container.bytes t.e).buf.avail % 8 = 0 by omega),
    (empty_iff s.buf).mpr hempty, if_true, if_neg hshort, he]

end

/-- Settles O39: the pull after the refill, whose content is the container read. -/
theorem decodeRefillResult : Obligations.DecodeRefillResult := by
  intro k t s hl hempty hin
  have hk : 2 ^ t.cc.toNat ≤ 2 ^ 3 := Nat.pow_le_pow_right (by decide) (by omega)
  obtain ⟨havail, hcontent⟩ := refill_of_empty hempty hk hin t.e
  obtain ⟨-, -, hfits⟩ := numBits_pos_of_legal hl
  obtain ⟨b, v, g, p, hpull, hvalue, hexec⟩ :=
    exec_pullv_of_staged (s := s.refill (2 ^ t.cc.toNat) t.e) hl (alignedFor_of_whole k (by omega)) (by omega)
  exact ⟨_, b, v, g, p, havail, hcontent, hpull, hvalue, (exec_dec_of_empty hl hempty hin).trans hexec⟩

/-- Settles O40: DEC on staged bits is PULLV. -/
theorem decodeStagedResult : Obligations.DecodeStagedResult := by
  intro k t s hl ha hstaged
  rw [exec_dec_of_staged (by omega)]
  exact pullValueResult k t s hl ha

/-! ## ENC (R116 to R120, R123) -/

/-- Settles O42: the push fits, and the drain writes every byte or none. -/
theorem encodeResult : Obligations.EncodeResult := by
  intro k t data s hl ha hroom
  have hpush := push_pushed t.e s.buf data hroom
  rw [exec_enc, encodeField_of_room hl ha hroom]
  generalize s.buf.push t.e data (requestWidth k t) = b0 at hpush ⊢
  rcases drainOut_cases (s.setBuf b0) t.e with ⟨hwhole, b, hb, h⟩ | ⟨hoff, h⟩
  · rw [setBuf_buf] at hwhole h
    refine ⟨b0, b, hpush, by rwa [if_pos hwhole], ?_⟩
    rw [h, if_pos hwhole, if_pos hwhole]
    rfl
  · rw [setBuf_buf] at hoff
    refine ⟨b0, b0, hpush, by rw [if_neg hoff], ?_⟩
    rw [h, if_neg hoff, if_neg hoff, List.append_nil]
    rfl

/-- Settles O45: from an empty buffer the field is the whole content, and it is whole bytes. -/
theorem fastPathIsByteOrderWrite : Obligations.FastPathIsByteOrderWrite := by
  intro k t data s hl hfull hempty
  obtain ⟨-, hle, -⟩ := numBits_pos_of_legal hl
  obtain ⟨b0, b, hpush, hb, hexec⟩ :=
    encodeResult k t data s hl (alignedFor_of_whole k (by omega)) (by omega)
  have havail : b0.avail = 8 * 2 ^ t.cc.toNat := by rw [hpush.1, hempty, Nat.zero_add, hfull]
  have hcontent := content_of_pushed_empty (pushed_mod hpush) hempty (Nat.mod_lt _ (Nat.two_pow_pos _))
  have hwhole : b0.avail % 8 = 0 := by omega
  rw [if_pos hwhole] at hb
  rw [if_pos hwhole, if_pos hwhole, havail, hcontent, Nat.mul_div_cancel_left _ (by decide)] at hexec
  exact ⟨b, hb, hexec⟩

/-! ## FLUSH (R121, R122) -/

/-- A push appends its bits to the content, in its order. -/
theorem content_of_pushed {e : Endian} {b b' : BitBuffer} {n v : Nat} (h : Pushed e b b' n v) :
    b'.content.toNat = joined e b.avail n b.content.toNat (v % 2 ^ n) := by
  obtain ⟨-, hcontent⟩ := h
  rw [hcontent]
  cases e with
  | big => rfl
  | little => exact Nat.add_comm ..

/-- Zeros come below the bits before them for big, above them for little. -/
theorem joined_zeros (e : Endian) (p q a : Nat) :
    joined e p q a 0 = match e with
      | .big => a * 2 ^ q
      | .little => a := by
  cases e <;> simp [joined]

/-- FLUSH is a push of the padding, of no bits on a byte boundary, and a drain. -/
theorem flushBuffer_of_pushed (e : Endian) {s : State} (h : s.buf.avail ≤ 64) :
    ∃ b0, Pushed e s.buf b0 (padBits s.buf.avail) 0 ∧ flushBuffer e s = (s.setBuf b0).drainOut e := by
  obtain ⟨hwhole, -, hlt⟩ := padBits_spec s.buf.avail
  rcases flushBuffer_cases e s with ⟨h0, hflush⟩ | ⟨-, hflush⟩
  · have hpad : padBits s.buf.avail = 0 := by omega
    exact ⟨s.buf, hpad ▸ pushed_nothing e s.buf, hflush⟩
  · exact ⟨_, push_pushed e s.buf 0 (by omega), hflush⟩

/-- Settles O43: the padded content is a whole number of bytes, which the drain writes. -/
theorem flushResult : Obligations.FlushResult := by
  intro e s h
  obtain ⟨hwhole, hceil, hlt⟩ := padBits_spec s.buf.avail
  obtain ⟨b0, hpush, hflush⟩ := flushBuffer_of_pushed e h
  have hpad : 8 * ((s.buf.avail + 7) / 8) - s.buf.avail = padBits s.buf.avail := by omega
  rcases drainOut_cases (s.setBuf b0) e with ⟨-, b, hb, hdrain⟩ | ⟨hoff, -⟩
  · refine ⟨b, hb, ?_⟩
    rw [exec_flush, hflush, hdrain, setBuf_buf, hpad, content_of_pushed hpush, Nat.zero_mod, joined_zeros, hpush.1,
      hceil]
    rfl
  · exact absurd (hpush.1.symm ▸ hwhole) hoff

end Sys2Proof.Proofs
end

section
/-! PROOF. What a push and a drain write, as numbers (spec/20_memory.md R29, R30): the bytes that reach OUT and the bits
still staged, read together in one order, are the bits staged before and then the bits pushed. -/

namespace Sys2Proof.Proofs

open Sys2Proof.Machine Sys2Proof.Laws

/-! ## Numbers put together in an order -/

theorem joined_assoc (e : Endian) (p q r a b c : Nat) :
    joined e p (q + r) a (joined e q r b c) = joined e (p + q) r (joined e p q a b) c := by
  cases e <;> simp only [joined] <;> ring

theorem joined_none_left (e : Endian) (q c : Nat) : joined e 0 q 0 c = c := by
  cases e <;> simp [joined]

theorem joined_none_right (e : Endian) (p a : Nat) : joined e p 0 a 0 = a := by
  cases e <;> simp [joined]

@[simp] theorem numberOf_nil (e : Endian) : numberOf e [] = 0 := by cases e <;> rfl

theorem numberOf_append (e : Endian) (xs ys : List Byte) :
    numberOf e (xs ++ ys) = joined e (8 * xs.length) (8 * ys.length) (numberOf e xs) (numberOf e ys) := by
  cases e with
  | big =>
    rw [numberOf, List.foldl_append, foldl_number, joined, Nat.pow_mul]
    rfl
  | little =>
    induction xs with
    | nil => simp [joined]
    | cons x xs ih =>
      rw [List.cons_append, numberOf_little_cons, ih, numberOf_little_cons, List.length_cons, joined, joined,
        Nat.mul_succ, Nat.pow_add]
      ring

/-- The bytes of a number stand for the number. -/
theorem numberOf_bytesOf (e : Endian) {k v : Nat} (h : v < 2 ^ (8 * k)) : numberOf e (bytesOf e k v) = v := by
  rw [Nat.pow_mul] at h
  induction k generalizing v with
  | zero => rw [bytesOf_zero, numberOf_nil]; omega
  | succ k ih =>
    have hpos : 0 < (2 ^ 8) ^ k := by positivity
    rw [Nat.pow_succ] at h
    cases e with
    | big =>
      have htop : v / 256 ^ k < 256 := Nat.div_lt_of_lt_mul h
      rw [bytesOf_big_succ, numberOf_big_cons, bytesOf_length, ih (Nat.mod_lt v hpos), BitVec.toNat_ofNat,
        Nat.mod_eq_of_lt htop, Nat.div_add_mod']
    | little =>
      rw [bytesOf_little_succ, numberOf_little_cons, ih (Nat.div_lt_of_lt_mul (by rwa [Nat.mul_comm] at h)),
        BitVec.toNat_ofNat, Nat.mod_add_div]

/-! ## Bits written -/

/-- From `s` to `t` whole bytes are appended to OUT, so that these bytes and then the bits left staged, read in one
order, are the bits that were staged and then `n` bits more, the number `v`. -/
def Writes (e : Endian) (s t : State) (n v : Nat) : Prop :=
  ∃ bs, t.output = s.output ++ bs ∧ 8 * bs.length + t.buf.avail = s.buf.avail + n ∧
    joined e (8 * bs.length) t.buf.avail (numberOf e bs) t.buf.content.toNat =
      joined e s.buf.avail n s.buf.content.toNat v

section
variable {e : Endian} {s t u : State} {n m v w : Nat}

theorem Writes.trans (h1 : Writes e s t n v) (h2 : Writes e t u m w) : Writes e s u (n + m) (joined e n m v w) := by
  obtain ⟨bs, hout, hlen, hnum⟩ := h1
  obtain ⟨cs, hout', hlen', hnum'⟩ := h2
  refine ⟨bs ++ cs, by rw [hout', hout, List.append_assoc], by rw [List.length_append]; omega, ?_⟩
  calc joined e (8 * (bs ++ cs).length) u.buf.avail (numberOf e (bs ++ cs)) u.buf.content.toNat
      = joined e (8 * bs.length + 8 * cs.length) u.buf.avail
          (joined e (8 * bs.length) (8 * cs.length) (numberOf e bs) (numberOf e cs)) u.buf.content.toNat := by
        rw [numberOf_append, List.length_append, Nat.mul_add]
    _ = joined e (8 * bs.length) (t.buf.avail + m) (numberOf e bs) (joined e t.buf.avail m t.buf.content.toNat w) := by
        rw [← joined_assoc, hlen', hnum']
    _ = joined e s.buf.avail (n + m) s.buf.content.toNat (joined e n m v w) := by
        rw [joined_assoc, hlen, hnum, joined_assoc]

theorem Writes.refl (e : Endian) (s : State) : Writes e s s 0 0 :=
  ⟨[], by simp, by simp, by simp [joined_none_left, joined_none_right]⟩

/-- The bits leave the buffer in whole bytes. -/
theorem Writes.count (h : Writes e s t n v) : ∃ k, 8 * k + t.buf.avail = s.buf.avail + n := by
  obtain ⟨bs, -, hlen, -⟩ := h
  exact ⟨bs.length, hlen⟩

/-- What ends in an empty buffer has written everything there was. -/
theorem Writes.bytes (h : Writes e s t n v) (hs : s.buf.avail = 0) (ht : t.buf.avail = 0) :
    ∃ bs, t.output = s.output ++ bs ∧ 8 * bs.length = n ∧ numberOf e bs = v := by
  obtain ⟨bs, hout, hlen, hnum⟩ := h
  rw [content_empty _ hs, content_empty _ ht, hs, ht, joined_none_left, joined_none_right] at hnum
  exact ⟨bs, hout, by omega, hnum⟩

end

theorem setBuf_writes {e : Endian} {s : State} {b : BitBuffer} {n v : Nat} (h : Pushed e s.buf b n v) :
    Writes e s (s.setBuf b) n (v % 2 ^ n) := by
  refine ⟨[], by simp, by simp [h.1], ?_⟩
  rw [numberOf_nil, List.length_nil, Nat.mul_zero, joined_none_left]
  exact content_of_pushed h

theorem drainOut_writes (e : Endian) (s : State) : Writes e s (s.drainOut e) 0 0 := by
  rcases drainOut_cases s e with ⟨hwhole, b, hb, h⟩ | ⟨-, h⟩
  · have hav : 8 * (s.buf.avail / 8) = s.buf.avail := by omega
    rw [h]
    refine ⟨bytesOf e (s.buf.avail / 8) s.buf.content.toNat, rfl, by simp [hb, hav], ?_⟩
    rw [numberOf_bytesOf e (hav.symm ▸ content_lt s.buf)]
    simp [hb, content_empty, joined_none_right]
  · rw [h]
    exact Writes.refl e s

/-- A push and then a drain write the bits pushed. -/
theorem push_drainOut_writes (e : Endian) {s : State} {n : Nat} (v : Word) (h : s.buf.avail + n ≤ 64) :
    Writes e s ((s.setBuf (s.buf.push e v n)).drainOut e) n (v.toNat % 2 ^ n) := by
  have hwrites := (setBuf_writes (push_pushed e s.buf v h)).trans (drainOut_writes e _)
  rwa [joined_none_right] at hwrites

/-- A drain leaves no whole bytes staged. -/
theorem drainOut_settles (e : Endian) (s : State) (h : (s.drainOut e).buf.avail % 8 = 0) :
    (s.drainOut e).buf.avail = 0 := by
  rcases drainOut_cases s e with ⟨-, b, hb, hdrain⟩ | ⟨hoff, hdrain⟩ <;> rw [hdrain] at h ⊢
  · exact hb
  · exact absurd h hoff

end Sys2Proof.Proofs
end

section
/-! PROOF. Records (spec/44_field_codec.md R124): what one ENC, a list of ENCs and the FLUSH after them write, and when
none of them raises a fault. -/

namespace Sys2Proof.Proofs

open Sys2Proof.Machine Sys2Proof.Laws

/-! ## The TD of a well-formed field -/

theorem typeOpd_legal {ft : FieldType} (h : ft.wellFormed = true) :
    LegalTd ft.kind ft.typeOpd ∧ ft.typeOpd.e = ft.endian ∧ requestWidth ft.kind ft.typeOpd = ft.numBits ∧
      2 ^ ft.typeOpd.cc.toNat = ft.container.bytes := by
  obtain ⟨hl, -, he, hn, hbytes⟩ := checkTd_ok (checkTd_typeOpd h)
  exact ⟨hl, he.symm, hn.symm, hbytes.symm⟩

/-! ## The bits of a record -/

@[simp] theorem totalBits_nil : totalBits [] = 0 := rfl

@[simp] theorem totalBits_cons (t : FieldType) (ts : List FieldType) :
    totalBits (t :: ts) = t.numBits + totalBits ts := by
  simp [totalBits]

/-- The bits of DATA that a field takes. -/
def lowBits (f : RecordField) : Nat := f.data.toNat % 2 ^ f.typ.numBits

theorem lowBits_lt (f : RecordField) : lowBits f < 2 ^ f.typ.numBits :=
  Nat.mod_lt _ (Nat.two_pow_pos _)

@[simp] theorem packed_nil (e : Endian) : packed e [] = 0 := by cases e <;> rfl

theorem foldl_packed (a : Nat) (fs : List RecordField) :
    fs.foldl (fun a f => a * 2 ^ f.typ.numBits + f.data.toNat % 2 ^ f.typ.numBits) a =
      a * 2 ^ totalBits (fs.map RecordField.typ) + packed .big fs := by
  induction fs generalizing a with
  | nil => simp
  | cons f fs ih =>
    simp only [packed, List.foldl_cons, List.map_cons, totalBits_cons]
    rw [ih, ih (0 * _ + _), Nat.pow_add]
    ring

/-- The first field of a record, and then the others. -/
theorem packed_cons (e : Endian) (f : RecordField) (fs : List RecordField) :
    packed e (f :: fs) =
      joined e f.typ.numBits (totalBits (fs.map RecordField.typ)) (lowBits f) (packed e fs) := by
  cases e with
  | big =>
    rw [packed, List.foldl_cons, foldl_packed, Nat.zero_mul, Nat.zero_add]
    rfl
  | little =>
    simp only [packed, List.foldr_cons, joined, lowBits]
    ring

theorem packed_lt (e : Endian) (fs : List RecordField) : packed e fs < 2 ^ totalBits (fs.map RecordField.typ) := by
  induction fs with
  | nil => simp
  | cons f fs ih =>
    rw [packed_cons, List.map_cons, totalBits_cons]
    exact joined_lt (lowBits_lt f) ih

/-! ## Fields written -/

/-- The counts that an ENC leaves staged: within R12's bound, and no whole number of bytes unless none. -/
def Settled (b : BitBuffer) : Prop := b.avail ≤ 64 ∧ (b.avail % 8 = 0 → b.avail = 0)

/-- From `s` to `t` one field is written, in its own order. -/
structure FieldWritten (f : RecordField) (s t : State) : Prop where
  writes  : Writes f.typ.endian s t f.typ.numBits (lowBits f)
  settled : Settled t.buf

/-- From `s` to `t` the fields of a list are written one after the other. -/
inductive FieldsWritten : List RecordField → State → State → Prop where
  | nil (s : State) : FieldsWritten [] s s
  | cons {f : RecordField} {fs : List RecordField} {s t u : State} (head : FieldWritten f s t)
      (tail : FieldsWritten fs t u) : FieldsWritten (f :: fs) s u

section
variable {fs : List RecordField} {s t : State}

theorem FieldsWritten.settled (h : FieldsWritten fs s t) (hs : Settled s.buf) : Settled t.buf := by
  induction h with
  | nil s => exact hs
  | cons head _ ih => exact ih head.settled

/-- Of any mixture of orders: the bits add up. -/
theorem FieldsWritten.bits (h : FieldsWritten fs s t) :
    ∃ bs, t.output = s.output ++ bs ∧
      8 * bs.length + t.buf.avail = s.buf.avail + totalBits (fs.map RecordField.typ) := by
  induction h with
  | nil s => exact ⟨[], by simp, by simp⟩
  | cons head _ ih =>
    obtain ⟨bs, hout, hlen, -⟩ := head.writes
    obtain ⟨cs, hout', hlen'⟩ := ih
    refine ⟨bs ++ cs, by rw [hout', hout, List.append_assoc], ?_⟩
    rw [List.length_append, List.map_cons, totalBits_cons]
    omega

/-- Of one order: the fields are written as one packed number. -/
theorem FieldsWritten.writes {e : Endian} (h : FieldsWritten fs s t) (he : ∀ f ∈ fs, f.typ.endian = e) :
    Writes e s t (totalBits (fs.map RecordField.typ)) (packed e fs) := by
  induction h with
  | nil s => exact packed_nil e ▸ Writes.refl e s
  | cons head _ ih =>
    obtain ⟨hf, hfs⟩ := List.forall_mem_cons.mp he
    rw [packed_cons, List.map_cons, totalBits_cons]
    exact (hf ▸ head.writes).trans (ih hfs)

end

/-! ## One step -/

/-- No command but RESET leaves a latched fault. -/
theorem step_of_fault {s : State} {i : Instr} {rest : List Command} (hi : i.wellFormed = true) (hne : i ≠ .reset)
    (hf : s.fault ≠ 0) (h : s.commands = encode i :: rest) :
    ∃ t, step s = .next t ∧ t.commands = rest ∧ t.fault ≠ 0 := by
  have hcw : (encode i).cw ≠ resetWord := by
    intro hcw
    have hdecode := decode_resetWord (encode i).data
    rw [← hcw, decodeOfEncode i hi] at hdecode
    exact hne (Except.ok.inj hdecode)
  exact ⟨_, step_refused h hf hcw, rfl, hf⟩

theorem faultCause_code_ne_zero (x : FaultCause) : x.code ≠ 0 := by cases x <;> decide

theorem drainOut_fault (s : State) (e : Endian) : (s.drainOut e).fault = s.fault := rfl

section
variable {f : RecordField} {s : State} (hwf : f.typ.wellFormed = true)
include hwf

/-- With room and, for a Float or Double, a whole number of bytes staged, ENC writes the field. -/
theorem encodeField_fieldWritten (hroom : s.buf.avail + f.typ.numBits ≤ 64) (ha : AlignedFor f.typ.kind s.buf) :
    FieldWritten f s (encodeField f.typ.kind f.typ.typeOpd f.data s) ∧
      (encodeField f.typ.kind f.typ.typeOpd f.data s).fault = s.fault := by
  obtain ⟨hl, he, hn, -⟩ := typeOpd_legal hwf
  have hwrites := push_drainOut_writes f.typ.endian f.data hroom
  obtain ⟨k, hcount⟩ := hwrites.count
  rw [encodeField_of_room hl ha (by omega), he, hn, drainOut_fault]
  exact ⟨⟨hwrites, by omega, drainOut_settles _ _⟩, rfl⟩

/-- Otherwise it raises. -/
theorem encodeField_raises (h : ¬ (s.buf.avail + f.typ.numBits ≤ 64 ∧ AlignedFor f.typ.kind s.buf)) :
    (encodeField f.typ.kind f.typ.typeOpd f.data s).fault ≠ 0 := by
  obtain ⟨-, -, hn, -⟩ := typeOpd_legal hwf
  rcases encodeField_cases f.typ.kind f.typ.typeOpd f.data s with
    ⟨x, -, henc⟩ | ⟨ft, hcheck, ⟨-, henc⟩ | ⟨hroom, -⟩⟩
  · exact henc ▸ faultCause_code_ne_zero x
  · exact henc ▸ faultCause_code_ne_zero .capacity
  · obtain ⟨-, ha, -, -, hn', -⟩ := checkField_ok hcheck
    exact absurd ⟨by omega, ha⟩ h

end

/-- What one ENC command of a well-formed field does: the field is written unless a fault is latched then, and with room
and alignment none is raised. -/
structure FieldStep (f : RecordField) (s t : State) (rest : List Command) : Prop where
  step      : step s = .next t
  commands  : t.commands = rest
  written   : t.fault = 0 → s.fault = 0 ∧ FieldWritten f s t
  faultless : s.fault = 0 → s.buf.avail + f.typ.numBits ≤ 64 → AlignedFor f.typ.kind s.buf → t.fault = 0

theorem step_fieldCommand {f : RecordField} {s : State} {rest : List Command} (hwf : f.typ.wellFormed = true)
    (h : s.commands = f.command :: rest) : ∃ t, FieldStep f s t rest := by
  have hencodable : (Instr.enc f.typ.kind f.typ.typeOpd f.data).wellFormed = true := by cases f.typ.kind <;> rfl
  by_cases hf : s.fault = 0
  · have hstep := step_encoded hencodable hf h
    have hcommands := (encodeField_answered f.typ.kind f.typ.typeOpd f.data (s.setCommands rest)).commands
    rw [exec_enc] at hstep
    by_cases hfits : s.buf.avail + f.typ.numBits ≤ 64 ∧ AlignedFor f.typ.kind s.buf
    · obtain ⟨hwritten, hfault⟩ := encodeField_fieldWritten (s := s.setCommands rest) hwf hfits.1 hfits.2
      exact ⟨_, hstep, hcommands, fun _ => ⟨hf, hwritten.writes, hwritten.settled⟩, fun _ _ _ => hfault.trans hf⟩
    · have hraises := encodeField_raises (s := s.setCommands rest) hwf hfits
      exact ⟨_, hstep, hcommands, fun ht => absurd ht hraises, fun _ hroom ha => absurd ⟨hroom, ha⟩ hfits⟩
  · obtain ⟨t, hstep, hrest, ht⟩ := step_of_fault hencodable (by cases f.typ.kind <;> simp [Instr.enc]) hf h
    exact ⟨t, hstep, hrest, fun h0 => absurd h0 ht, fun hs => absurd hs hf⟩

/-! ## A list of ENCs -/

/-- A Float or Double among some fields stands alone, and finds a whole number of bytes staged. -/
def FloatsAlone (ts : List FieldType) (avail : Nat) : Prop :=
  ∀ t ∈ ts, t.floating = true → ts.length = 1 ∧ avail % 8 = 0

theorem FloatsAlone.head {t : FieldType} {ts : List FieldType} {b : BitBuffer} (h : FloatsAlone (t :: ts) b.avail) :
    AlignedFor t.kind b := by
  cases t with
  | uint | int => trivial
  | float | double => exact (h _ (List.mem_cons_self ..) rfl).2

/-- Behind the first field there is none. -/
theorem FloatsAlone.tail {t : FieldType} {ts : List FieldType} {a : Nat} (h : FloatsAlone (t :: ts) a) (a' : Nat) :
    FloatsAlone ts a' := by
  intro t' hmem hfloat
  obtain ⟨hlen, -⟩ := h t' (List.mem_cons_of_mem t hmem) hfloat
  have hpos := List.length_pos_of_mem hmem
  rw [List.length_cons] at hlen
  omega

/-- What the ENC commands of a list of well-formed fields do, like `FieldStep` for one. -/
structure FieldsRun (fs : List RecordField) (s t : State) (rest : List Command) : Prop where
  run       : core.run fs.length s = .next t
  commands  : t.commands = rest
  written   : t.fault = 0 → s.fault = 0 ∧ FieldsWritten fs s t
  faultless : s.fault = 0 → s.buf.avail + totalBits (fs.map RecordField.typ) ≤ 64 →
    FloatsAlone (fs.map RecordField.typ) s.buf.avail → t.fault = 0

theorem run_fieldCommands (fs : List RecordField) (rest : List Command) {s : State}
    (hwf : ∀ f ∈ fs, f.typ.wellFormed = true) (h : s.commands = fs.map RecordField.command ++ rest) :
    ∃ t, FieldsRun fs s t rest := by
  induction fs generalizing s with
  | nil => exact ⟨s, rfl, h, fun hs => ⟨hs, .nil s⟩, fun hs _ _ => hs⟩
  | cons f fs ih =>
    obtain ⟨hwff, hwffs⟩ := List.forall_mem_cons.mp hwf
    obtain ⟨t, hstep⟩ := step_fieldCommand hwff h
    obtain ⟨u, hrun⟩ := ih hwffs hstep.commands
    refine ⟨u, (run_succ _ hstep.step).trans hrun.run, hrun.commands, fun hu => ?_, fun hs hroom hfloats => ?_⟩
    · obtain ⟨ht, htail⟩ := hrun.written hu
      obtain ⟨hs, hhead⟩ := hstep.written ht
      exact ⟨hs, .cons hhead htail⟩
    · rw [List.map_cons, totalBits_cons] at hroom
      have ht := hstep.faultless hs (by omega) hfloats.head
      obtain ⟨k, hcount⟩ := (hstep.written ht).2.writes.count
      exact hrun.faultless ht (by omega) (hfloats.tail _)

/-! ## The FLUSH at the end -/

/-- FLUSH writes the padding and leaves nothing staged. -/
theorem flushBuffer_writes (e : Endian) {s : State} (h : s.buf.avail ≤ 64) :
    Writes e s (flushBuffer e s) (padBits s.buf.avail) 0 ∧ (flushBuffer e s).buf.avail = 0 := by
  obtain ⟨b0, hpush, hflush⟩ := flushBuffer_of_pushed e h
  obtain ⟨hwhole, -, -⟩ := padBits_spec s.buf.avail
  have hwrites := (setBuf_writes hpush).trans (drainOut_writes e _)
  rw [Nat.zero_mod, joined_none_right] at hwrites
  obtain ⟨k, hcount⟩ := hwrites.count
  rw [hflush]
  exact ⟨hwrites, drainOut_settles e _ (by omega)⟩

/-- A record encoded from an empty buffer without a fault: its fields are written, then the padding. -/
theorem runProgram_encodeProgram {fs : List RecordField} {e : Endian} {s t : State}
    (hwf : ∀ f ∈ fs, f.typ.wellFormed = true) (hempty : s.buf.avail = 0) (hc : s.commands = encodeProgram fs e)
    (hrun : runProgram s = .next t) (ht : t.fault = 0) :
    ∃ s1, FieldsWritten fs s s1 ∧ Writes e s1 t (padBits s1.buf.avail) 0 ∧ t.buf.avail = 0 := by
  obtain ⟨s1, hfields⟩ := run_fieldCommands fs _ hwf hc
  have hencodable : (Instr.flush e).wellFormed = true := by cases e <;> rfl
  have hlast : step s1 = .next t := by
    rw [runProgram, hc, encodeProgram, List.length_append, List.length_map, run_add _ _ hfields.run] at hrun
    obtain ⟨u, hstep, -⟩ := step_answered hfields.commands
    rw [List.length_singleton, run_succ 0 hstep] at hrun
    exact hstep.trans hrun
  by_cases hf : s1.fault = 0
  · obtain ⟨-, hwritten⟩ := hfields.written hf
    have hsettled := hwritten.settled ⟨by omega, fun _ => hempty⟩
    have hflush := hlast.symm.trans (step_encoded hencodable hf hfields.commands)
    rw [exec_flush] at hflush
    cases hflush
    exact ⟨s1, hwritten, flushBuffer_writes e (s := s1.setCommands []) hsettled.1⟩
  · obtain ⟨u, hstep, -, hu⟩ := step_of_fault hencodable (by cases e <;> simp [Instr.flush]) hf hfields.commands
    cases hlast.symm.trans hstep
    exact absurd ht hu

/-! ## The statements -/

/-- Settles O46: the fields' bits and the padding are the bytes written. -/
theorem recordLength : Obligations.RecordLength := by
  intro fs e s t hwf _ hempty hc hrun ht
  obtain ⟨s1, hfields, ⟨cs, hout', hlen', -⟩, hend⟩ := runProgram_encodeProgram hwf hempty hc hrun ht
  obtain ⟨bs, hout, hlen⟩ := hfields.bits
  obtain ⟨-, -, hpad⟩ := padBits_spec s1.buf.avail
  refine ⟨hend, bs ++ cs, by rw [hout', hout, List.append_assoc], ?_⟩
  rw [List.length_append]
  omega

/-- Settles O47: the packed fields and then the padding zeros are the number written. -/
theorem recordLayout : Obligations.RecordLayout := by
  intro fs e s t hfs _ hempty hc hrun ht
  obtain ⟨s1, hfields, hpad, hend⟩ := runProgram_encodeProgram (fun f hf => (hfs f hf).1) hempty hc hrun ht
  obtain ⟨bs, hout, hlen, hnum⟩ := ((hfields.writes fun f hf => (hfs f hf).2).trans hpad).bytes hempty hend
  refine ⟨bs, hout, ?_⟩
  rw [hnum, joined_zeros, hlen, Nat.add_sub_cancel_left]
  cases e <;> rfl

end Sys2Proof.Proofs
end

section
/-! PROOF. Templates that tile their containers (spec/44_field_codec.md R125): a group is written as the bytes of one
container and read back with one refill, field by field. -/

namespace Sys2Proof.Proofs

open Sys2Proof.Machine Sys2Proof.Laws

/-! ## A tile -/

/-- A group of fields, and the order and the container it is to have. -/
abbrev FieldGroup := Endian × Container × List RecordField

/-- The record that a list of groups makes up. -/
def groupFields (gs : List FieldGroup) : List RecordField := gs.flatMap fun g => g.2.2

theorem groupFields_cons (g : FieldGroup) (gs : List FieldGroup) : groupFields (g :: gs) = g.2.2 ++ groupFields gs :=
  List.flatMap_cons

/-- What R125 asks of a group, about its fields. -/
structure Tiles (e : Endian) (c : Container) (fs : List RecordField) : Prop where
  fields : ∀ f ∈ fs, f.typ.wellFormed = true ∧ f.typ.endian = e ∧ f.typ.container = c
  bits   : totalBits (fs.map RecordField.typ) = c.bits
  floats : ∀ a, a % 8 = 0 → FloatsAlone (fs.map RecordField.typ) a

theorem tiles_of_tilesContainer {e : Endian} {c : Container} {fs : List RecordField}
    (h : tilesContainer e c (fs.map RecordField.typ) = true) : Tiles e c fs := by
  simp only [tilesContainer, Bool.and_eq_true, Bool.or_eq_true, List.all_eq_true, beq_iff_eq, and_assoc] at h
  obtain ⟨hfields, hbits, hfloats⟩ := h
  refine ⟨fun f hf => hfields _ (List.mem_map_of_mem hf), hbits, fun a ha t ht hfloat => ⟨?_, ha⟩⟩
  rcases hfloats with hnone | hone
  · exact absurd hfloat (by simpa using hnone t ht)
  · exact hone

/-! ## Encoding groups -/

/-- `bs` is one container of bytes, which stand for the fields packed in their order. -/
structure Holds (e : Endian) (c : Container) (fs : List RecordField) (bs : List Byte) : Prop where
  length : bs.length = c.bytes
  number : numberOf e bs = packed e fs

/-- The ENC commands of a tiled group run without a fault and write its container. -/
theorem run_encode_group {e : Endian} {c : Container} {fs : List RecordField} (rest : List Command) {s : State}
    (ht : Tiles e c fs) (hf : s.fault = 0) (hempty : s.buf.avail = 0)
    (hc : s.commands = fs.map RecordField.command ++ rest) :
    ∃ t bs, core.run fs.length s = .next t ∧ t.commands = rest ∧ t.fault = 0 ∧ t.buf.avail = 0 ∧
      t.output = s.output ++ bs ∧ Holds e c fs bs := by
  have hle := container_bytes_le c
  have hbytes := container_bits_eq c
  obtain ⟨t, hrun⟩ := run_fieldCommands fs rest (fun f hf => (ht.fields f hf).1) hc
  have hfault := hrun.faultless hf (by rw [ht.bits]; omega) (ht.floats _ (by omega))
  obtain ⟨-, hfields⟩ := hrun.written hfault
  have hwrites := hfields.writes fun f hf => (ht.fields f hf).2.1
  rw [ht.bits] at hwrites
  obtain ⟨k, hcount⟩ := hwrites.count
  have hend : t.buf.avail = 0 := (hfields.settled ⟨by omega, fun _ => hempty⟩).2 (by omega)
  obtain ⟨bs, hout, hlen, hnum⟩ := hwrites.bytes hempty hend
  exact ⟨t, bs, hrun.run, hrun.commands, hfault, hend, hout, by omega, hnum⟩

/-- The ENC commands of tiled groups run without a fault and write a container for each group. -/
theorem run_encode_groups (gs : List FieldGroup) {s : State} (ht : ∀ g ∈ gs, Tiles g.1 g.2.1 g.2.2)
    (hf : s.fault = 0) (hempty : s.buf.avail = 0) (hc : s.commands = (groupFields gs).map RecordField.command) :
    ∃ t bss, core.run (groupFields gs).length s = .next t ∧ t.fault = 0 ∧ t.buf.avail = 0 ∧
      t.output = s.output ++ bss.flatten ∧ List.Forall₂ (fun g => Holds g.1 g.2.1 g.2.2) gs bss := by
  induction gs generalizing s with
  | nil => exact ⟨s, [], rfl, hf, hempty, by simp, .nil⟩
  | cons g gs ih =>
    obtain ⟨htg, htgs⟩ := List.forall_mem_cons.mp ht
    rw [groupFields_cons, List.map_append] at hc
    obtain ⟨t, bs, hrun, hcommands, hfault, hend, hout, hbs⟩ := run_encode_group _ htg hf hempty hc
    obtain ⟨u, bss, hrun', hfault', hend', hout', hbss⟩ := ih htgs hfault hend hcommands
    refine ⟨u, bs :: bss, ?_, hfault', hend', ?_, .cons hbs hbss⟩
    · rw [groupFields_cons, List.length_append, run_add _ _ hrun, hrun']
    · rw [hout', hout, List.flatten_cons, List.append_assoc]

/-! ## Decoding fields already staged -/

/-- The response to the DEC of a field: OK, with a Value that stands for the low bits of the field's DATA. -/
def FieldAnswered (cfg : Config) (f : RecordField) (r : Response) : Prop :=
  r.status = .ok ∧ ∃ g, r.vtag = some g ∧
    Interpreted cfg.intNarrowExt f.typ.kind f.typ.numBits (BitVec.ofNat 64 (lowBits f)) g r.data

theorem entry_wellFormed (t : FieldType) : (Instr.dec t.kind t.typeOpd).wellFormed = true := by cases t <;> rfl

/-- With a run of fields staged as one packed number, PULLV takes the first and leaves the others. -/
theorem exec_pullv_of_packed {f : RecordField} {fs : List RecordField} {s : State} (hwf : f.typ.wellFormed = true)
    (ha : AlignedFor f.typ.kind s.buf) (havail : s.buf.avail = totalBits ((f :: fs).map RecordField.typ))
    (hcontent : s.buf.content.toNat = packed f.typ.endian (f :: fs)) :
    ∃ b r, exec (.pullv f.typ.kind f.typ.typeOpd) s = .next { s with buf := b, responses := s.responses ++ [r] } ∧
      FieldAnswered s.cfg f r ∧ b.avail = totalBits (fs.map RecordField.typ) ∧
      b.content.toNat = packed f.typ.endian fs := by
  obtain ⟨hl, he, hn, -⟩ := typeOpd_legal hwf
  rw [List.map_cons, totalBits_cons] at havail
  rw [packed_cons] at hcontent
  obtain ⟨b, v, g, p, hpull, hvalue, hexec⟩ := exec_pullv_of_staged hl ha (by omega)
  rw [he, hn] at hpull
  obtain ⟨hv, havail', hcontent'⟩ := pulled_joined (lowBits_lt f) (packed_lt _ fs) hpull havail hcontent
  refine ⟨b, ⟨.ok, some g, p⟩, hexec, ⟨rfl, g, rfl, ?_⟩, havail', hcontent'⟩
  rwa [← hv, BitVec.ofNat_toNat, BitVec.setWidth_eq, ← hn]

/-- The DEC commands of fields staged as one packed number run without a fault, read nothing and answer the fields in
order. -/
theorem run_decode_staged (e : Endian) (fs : List RecordField) (rest : List Command) {s : State} (hf : s.fault = 0)
    (hfs : ∀ f ∈ fs, f.typ.wellFormed = true ∧ f.typ.endian = e)
    (hfloats : FloatsAlone (fs.map RecordField.typ) s.buf.avail)
    (havail : s.buf.avail = totalBits (fs.map RecordField.typ)) (hcontent : s.buf.content.toNat = packed e fs)
    (hc : s.commands = decodeProgram (fs.map RecordField.typ) ++ rest) :
    ∃ b rs, core.run fs.length s = .next (ranTo s b rest rs) ∧ b.avail = 0 ∧
      List.Forall₂ (FieldAnswered s.cfg) fs rs := by
  induction fs generalizing s with
  | nil =>
    obtain rfl : s.commands = rest := hc
    exact ⟨s.buf, [], congrArg Host.Outcome.next (ranTo_refl s).symm, havail, .nil⟩
  | cons f fs ih =>
    obtain ⟨⟨hwf, rfl⟩, htail⟩ := List.forall_mem_cons.mp hfs
    have hpos := ((wellFormed_iff f.typ).mp hwf).1
    have hstaged : s.buf.avail ≠ 0 := by rw [havail, List.map_cons, totalBits_cons]; omega
    replace hc : s.commands = entryCommand f.typ :: (decodeProgram (fs.map RecordField.typ) ++ rest) := hc
    generalize hrest : decodeProgram (fs.map RecordField.typ) ++ rest = rest' at hc
    obtain ⟨b1, r, hexec, hr, havail1, hcontent1⟩ :=
      exec_pullv_of_packed (s := s.setCommands rest') hwf hfloats.head havail hcontent
    have hdec := exec_dec_of_staged (k := f.typ.kind) (t := f.typ.typeOpd) (s := s.setCommands rest') hstaged
    have hstep : step s = .next (ranTo s b1 rest' [r]) :=
      (step_encoded (entry_wellFormed f.typ) hf hc).trans (hdec.trans hexec)
    obtain ⟨b, rs, hrun, hb, hrs⟩ :=
      ih (s := ranTo s b1 rest' [r]) hf htail (hfloats.tail _) havail1 hcontent1 hrest.symm
    exact ⟨b, r :: rs, by rw [List.length_cons, run_succ _ hstep, hrun, ranTo_ranTo]; rfl, hb, .cons hr hrs⟩

/-! ## Decoding groups -/

/-- The first DEC of a group refills the buffer, and then does what it does on the refilled buffer. -/
theorem step_of_refill {ft : FieldType} {rest : List Command} {s : State} (hwf : ft.wellFormed = true)
    (hf : s.fault = 0) (hempty : s.buf.avail = 0) (hin : ft.container.bytes ≤ s.input.length)
    (hc : s.commands = entryCommand ft :: rest) : step s = step (s.refill ft.container.bytes ft.endian) := by
  obtain ⟨hl, he, -, hbytes⟩ := typeOpd_legal hwf
  have hpos : 0 < ft.container.bytes := by cases ft.container <;> decide
  obtain ⟨havail, -⟩ := refill_of_empty hempty (container_bytes_le _) hin ft.endian
  have hempty' := exec_dec_of_empty (s := s.setCommands rest) hl hempty (hbytes ▸ hin)
  have hstaged := exec_dec_of_staged (k := ft.kind) (t := ft.typeOpd)
    (s := (s.refill ft.container.bytes ft.endian).setCommands rest) (by rw [setCommands_buf]; omega)
  rw [hbytes, he] at hempty'
  calc step s
      = exec (.dec ft.kind ft.typeOpd) (s.setCommands rest) := step_encoded (entry_wellFormed ft) hf hc
    _ = exec (.dec ft.kind ft.typeOpd) ((s.refill ft.container.bytes ft.endian).setCommands rest) :=
        hempty'.trans hstaged.symm
    _ = step (s.refill ft.container.bytes ft.endian) :=
        (step_encoded (s := s.refill ft.container.bytes ft.endian) (entry_wellFormed ft) hf hc).symm

/-- Runs from states with the same step are the same. -/
theorem run_congr_step {s t : State} (h : step s = step t) (k : Nat) : core.run (k + 1) s = core.run (k + 1) t := by
  have hcore : core.step s = core.step t := h
  simp only [Host.Core.run, hcore]

/-- The DEC commands of a tiled group read its container and answer its fields. -/
theorem run_decode_group {e : Endian} {c : Container} {fs : List RecordField} {bs inp : List Byte}
    (rest : List Command) {s : State} (ht : Tiles e c fs) (hbs : Holds e c fs bs) (hf : s.fault = 0)
    (hempty : s.buf.avail = 0) (hin : s.input = bs ++ inp)
    (hc : s.commands = decodeProgram (fs.map RecordField.typ) ++ rest) :
    ∃ b rs, core.run fs.length s = .next (ranTo (s.setInput inp) b rest rs) ∧ b.avail = 0 ∧
      List.Forall₂ (FieldAnswered s.cfg) fs rs := by
  have hbits := ht.bits
  have hbytes := container_bits_eq c
  have hle : c.bytes ≤ s.input.length := by rw [hin, List.length_append, hbs.length]; omega
  cases fs with
  | nil => cases c <;> cases hbits
  | cons f fs =>
    obtain ⟨hwf, rfl, rfl⟩ := ht.fields f (List.mem_cons_self ..)
    have htake : s.input.take f.typ.container.bytes = bs := by rw [hin, ← hbs.length, List.take_left]
    have hdrop : s.input.drop f.typ.container.bytes = inp := by rw [hin, ← hbs.length, List.drop_left]
    obtain ⟨havail, hcontent⟩ := refill_of_empty hempty (container_bytes_le _) hle f.typ.endian
    rw [htake, hbs.number] at hcontent
    obtain ⟨b, rs, hrun, hb, hrs⟩ := run_decode_staged f.typ.endian (f :: fs) rest
      (s := s.refill f.typ.container.bytes f.typ.endian) hf
      (fun f' hf' => ⟨(ht.fields f' hf').1, (ht.fields f' hf').2.1⟩) (ht.floats _ (by omega)) (by omega) hcontent hc
    exact ⟨b, rs, (run_congr_step (step_of_refill hwf hf hempty hle hc) _).trans (hdrop ▸ hrun), hb, hrs⟩

/-- The DEC commands of tiled groups read a container for each group and answer every field in order. -/
theorem run_decode_groups {gs : List FieldGroup} {bss : List (List Byte)}
    (hbss : List.Forall₂ (fun g => Holds g.1 g.2.1 g.2.2) gs bss) {s : State}
    (ht : ∀ g ∈ gs, Tiles g.1 g.2.1 g.2.2) (hf : s.fault = 0) (hempty : s.buf.avail = 0)
    (hin : s.input = bss.flatten) (hc : s.commands = decodeProgram ((groupFields gs).map RecordField.typ)) :
    ∃ t rs, core.run (groupFields gs).length s = .next t ∧ t.fault = 0 ∧ t.input = [] ∧
      t.responses = s.responses ++ rs ∧ List.Forall₂ (FieldAnswered s.cfg) (groupFields gs) rs := by
  induction hbss generalizing s with
  | nil => exact ⟨s, [], rfl, hf, hin, by simp, .nil⟩
  | @cons g bs gs bss hbs _ ih =>
    obtain ⟨htg, htgs⟩ := List.forall_mem_cons.mp ht
    rw [groupFields_cons, List.map_append, decodeProgram, List.map_append] at hc
    obtain ⟨b, rs, hrun, hb, hrs⟩ := run_decode_group _ htg hbs hf hempty hin hc
    obtain ⟨u, rs', hrun', hfault', hin', hresp, hrs'⟩ :=
      ih (s := ranTo (s.setInput bss.flatten) b _ rs) htgs hf hb rfl rfl
    refine ⟨u, rs ++ rs', ?_, hfault', hin', ?_, ?_⟩
    · rw [groupFields_cons, List.length_append, run_add _ _ hrun]
      exact hrun'
    · rw [hresp, ← List.append_assoc]
      rfl
    · rw [groupFields_cons]
      exact List.rel_append hrs hrs'

/-- A run of as many steps as commands wait is the run of the program. -/
theorem runProgram_of_run {s t : State} {k : Nat} (h : core.run k s = .next t) (hk : s.commands.length = k) :
    runProgram s = .next t :=
  (congrArg (core.run · s) hk).trans h

/-! ## The statement -/

/-- Settles O48: each group is written as its container, from which its fields are then answered. -/
theorem tiledTemplateRoundTrips : Obligations.TiledTemplateRoundTrips := by
  intro gs cfg hgs
  have ht : ∀ g ∈ gs, Tiles g.1 g.2.1 g.2.2 := fun g hg => tiles_of_tilesContainer (hgs g hg)
  obtain ⟨t, bss, hrun, hfault, hend, hout, hbss⟩ :=
    run_encode_groups gs (s := State.powerOn cfg [] ((groupFields gs).map RecordField.command)) ht rfl rfl rfl
  obtain ⟨u, rs, hrun', hfault', hin', hresp, hrs⟩ := run_decode_groups hbss
    (s := State.powerOn cfg t.output (decodeProgram ((groupFields gs).map RecordField.typ))) ht rfl rfl hout rfl
  exact ⟨t, u, runProgram_of_run hrun (List.length_map _), hfault, hend,
    runProgram_of_run hrun' ((List.length_map _).trans (List.length_map _)), hfault', hin', hresp ▸ hrs⟩

end Sys2Proof.Proofs
end

section
/-! PROOF. RESET (spec/45_system.md R130): the registers are cleared and the response is (OK, NONE, 0), from every state,
with a fault latched or not. -/

namespace Sys2Proof.Proofs

open Sys2Proof.Machine Sys2Proof.Laws

/-- RESET has no check that could end it early. -/
theorem exec_reset (s : State) : exec .reset s = .next (s.clear.respond .ok none 0) := rfl

/-- Clearing writes the two registers of the state and no stream (R155, R156). -/
theorem clear_eq (s : State) : s.clear = { s with buf := ⟨0, 0⟩, fault := 0 } := rfl

/-- Settles O38: the response is appended to the cleared state, whose other fields are those of `s`. -/
theorem resetResult : Obligations.ResetResult := by
  intro s
  rw [exec_reset, clear_eq, State.respond]

end Sys2Proof.Proofs
end

section
/-! PROOF. The status of every command (spec/60_exceptions.md): it is the first of R146's list, R135's table names its
cause, and a command that raises does nothing else (R136, R147). -/

namespace Sys2Proof.Proofs

open Sys2Proof.Machine Sys2Proof.Laws

/-! ## What comes with a status -/

/-- `t` answers a command of `s` with the given status, and with what R136, R140, R144 and R145 allow beside it. A
command that is answered OK may have any other effect. -/
inductive AnsweredAs (s : State) : Status → State → Prop
  | ok {t : State} {g : Option Tag} {d : Word} (h : t.responses = s.responses ++ [⟨.ok, g, d⟩]) : AnsweredAs s .ok t
  | raised {x : FaultCause} (h : x ≠ .endOfInput) : AnsweredAs s (.raised x) (s.raise x 0)
  | endOfInput (h : s.input.length ≤ 7) :
    AnsweredAs s (.raised .endOfInput) ((s.setInput []).raise .endOfInput (BitVec.ofNat 64 s.input.length))
  | faulted : AnsweredAs s .faulted (s.respond .faulted none (s.fault.setWidth 64))
  | noItem : AnsweredAs s .noItem (s.respond .noItem none 0)

/-- An answer is one response, of its status; only an OK carries a Value. -/
theorem AnsweredAs.response {s t : State} {x : Status} (h : AnsweredAs s x t) :
    ∃ r, t.responses = s.responses ++ [r] ∧ r.status = x ∧ (x ≠ .ok → r.vtag = none) := by
  cases h with
  | ok h => exact ⟨_, h, rfl, fun hok => absurd rfl hok⟩
  | raised | endOfInput | faulted | noItem => exact ⟨_, rfl, rfl, fun _ => rfl⟩

/-! ## The priority list (R146) -/

section
variable {i : Instr} {k : Kind} {t : TypeOpd} {s : State} (hi : i.typed = some (k, t))
include hi

theorem badWidth_iff : i.badWidth = true ↔ (k = .uint ∨ k = .int) ∧ (t.nb.toNat = 0 ∨ t.nb.toNat > 64) := by
  cases i <;> cases hi <;> simp [Instr.badWidth, Instr.typed]

/-- Rows 3 and 4 of R146 together are the TD check of R44. -/
theorem legalTd_iff : LegalTd k t ↔ ¬ i.badWidth = true ∧ ¬ i.badFormat = true := by
  rw [badWidth_iff hi, Instr.badFormat, hi]
  cases k with
  | uint | int =>
    simp only [LegalTd, true_or, or_true, true_and, decide_eq_true_eq]
    omega
  | float | double => simp [LegalTd]

theorem alignedFor_iff : AlignedFor k s.buf ↔ ¬ i.badAlignment s = true := by
  rw [Instr.badAlignment, hi]
  cases k <;> simp

/-- What the field check raises is the first status: rows 3, 4 and 5 of R146 are its checks, in its order. -/
theorem firstStatus_of_checkField_error {x : FaultCause} (h : checkField k t s.buf = .error x) :
    i.firstStatus s = .raised x := by
  rcases checkField_error h with ⟨rfl, hwidth⟩ | ⟨rfl, hbad, hwidth⟩ | ⟨rfl, hl, hk, hoff⟩
  · rw [Instr.firstStatus, if_pos ((badWidth_iff hi).mpr hwidth)]
  · have hw : ¬ i.badWidth = true := fun hw => by
      obtain ⟨hint, hn⟩ := (badWidth_iff hi).mp hw
      obtain ⟨hpos, hle⟩ := hwidth hint
      omega
    have hf : i.badFormat = true := by_contra fun hf => hbad ((legalTd_iff hi).mpr ⟨hw, hf⟩)
    rw [Instr.firstStatus, if_neg hw, if_pos hf]
  · obtain ⟨hw, hf⟩ := (legalTd_iff hi).mp hl
    have ha : i.badAlignment s = true := by
      refine by_contra fun ha => ?_
      have haligned := (alignedFor_iff hi).mpr ha
      rcases hk with rfl | rfl <;> exact hoff haligned
    rw [Instr.firstStatus, if_neg hw, if_neg hf, if_pos ha]

/-- Past the field check, rows 6, 7 and 8 of R146 remain. -/
theorem firstStatus_of_checkField_ok {ft : FieldType} (h : checkField k t s.buf = .ok ft) :
    i.firstStatus s = if i.noInput s then .raised .endOfInput else if i.noRoom s then .raised .capacity
      else if i.tooFewBits s then .raised .underflow else .ok := by
  obtain ⟨hl, ha, -⟩ := checkField_ok h
  obtain ⟨hw, hf⟩ := (legalTd_iff hi).mp hl
  have hpullb : i ≠ .pullb := by rintro rfl; cases hi
  rw [Instr.firstStatus, if_neg hw, if_neg hf, if_neg ((alignedFor_iff hi).mp ha)]
  simp only [hpullb, false_and, if_false]

end

/-- Without a TD, rows 3 and 7 of R146 and the NO_ITEM of R145 remain. -/
theorem firstStatus_of_untyped {i : Instr} (hi : i.typed = none) (s : State) :
    i.firstStatus s = if i.badWidth then .raised .unsupportedWidth else if i.noRoom s then .raised .capacity
      else if i = .pullb ∧ (s.buf.avail = 0 ∨ s.buf.avail % 8 ≠ 0) then .noItem else .ok := by
  have hrows : i.badFormat = false ∧ i.badAlignment s = false ∧ i.noInput s = false ∧ i.tooFewBits s = false := by
    cases i <;> cases hi <;> exact ⟨rfl, rfl, rfl, rfl⟩
  obtain ⟨hformat, halign, hinput, hbits⟩ := hrows
  simp only [Instr.firstStatus, hformat, halign, hinput, hbits, Bool.false_eq_true, if_false]

theorem firstStatus_pushb (e : Endian) (b : Byte) (s : State) :
    (Instr.pushb e b).firstStatus s = if 64 < s.buf.avail + 8 then .raised .capacity else .ok := by
  rw [firstStatus_of_untyped (by cases e <;> rfl)]
  cases e <;> simp [Instr.pushb, Instr.badWidth, Instr.typed, Instr.noRoom, Instr.pushWidth]

theorem firstStatus_pushv (e : Endian) (n : BitVec 7) (d : Word) (s : State) :
    (Instr.pushv e n d).firstStatus s = if n.toNat = 0 then .raised .unsupportedWidth
      else if 64 < s.buf.avail + n.toNat then .raised .capacity else .ok := by
  rw [firstStatus_of_untyped (by cases e <;> rfl)]
  cases e <;> simp [Instr.pushv, Instr.badWidth, Instr.noRoom, Instr.pushWidth]

theorem firstStatus_pullb (s : State) :
    Instr.pullb.firstStatus s = if s.buf.aligned then .ok else .noItem := by
  have haligned : s.buf.aligned = true ↔ ¬ (s.buf.avail = 0 ∨ s.buf.avail % 8 ≠ 0) := by
    rw [aligned_iff]
    omega
  rw [firstStatus_of_untyped rfl]
  simp only [haligned, ite_not]
  simp [Instr.badWidth, Instr.typed, Instr.noRoom, Instr.pushWidth]

theorem firstStatus_drain (e : Endian) (s : State) : (Instr.drain e).firstStatus s = .ok := by cases e <;> rfl

theorem firstStatus_flush (e : Endian) (s : State) : (Instr.flush e).firstStatus s = .ok := by cases e <;> rfl

section
variable {k : Kind} {t : TypeOpd} {s : State} {ft : FieldType}

theorem typed_pullv (k : Kind) (t : TypeOpd) : (Instr.pullv k t).typed = some (k, t) := by cases k <;> rfl
theorem typed_dec (k : Kind) (t : TypeOpd) : (Instr.dec k t).typed = some (k, t) := by cases k <;> rfl
theorem typed_enc (k : Kind) (t : TypeOpd) (d : Word) : (Instr.enc k t d).typed = some (k, t) := by cases k <;> rfl

theorem firstStatus_pullv (h : checkField k t s.buf = .ok ft) :
    (Instr.pullv k t).firstStatus s = if s.buf.avail < requestWidth k t then .raised .underflow else .ok := by
  rw [firstStatus_of_checkField_ok (typed_pullv k t) h]
  cases k <;> simp [Instr.pullv, Instr.noInput, Instr.noRoom, Instr.tooFewBits, Instr.pushWidth, Instr.pullWidth,
    Instr.decWidth]

theorem firstStatus_dec (h : checkField k t s.buf = .ok ft) :
    (Instr.dec k t).firstStatus s =
      if s.buf.avail = 0 ∧ s.input.length < 2 ^ t.cc.toNat then .raised .endOfInput
      else if s.buf.avail ≠ 0 ∧ s.buf.avail < requestWidth k t then .raised .underflow else .ok := by
  rw [firstStatus_of_checkField_ok (typed_dec k t) h]
  cases k <;> simp [Instr.dec, Instr.noInput, Instr.noRoom, Instr.tooFewBits, Instr.pushWidth, Instr.pullWidth,
    Instr.decWidth]

theorem firstStatus_enc (h : checkField k t s.buf = .ok ft) (d : Word) :
    (Instr.enc k t d).firstStatus s =
      if 64 < s.buf.avail + requestWidth k t then .raised .capacity else .ok := by
  rw [firstStatus_of_checkField_ok (typed_enc k t d) h]
  cases k <;> simp [Instr.enc, Instr.noInput, Instr.noRoom, Instr.tooFewBits, Instr.pushWidth, Instr.pullWidth,
    Instr.decWidth]

end

/-! ## Every command is answered with its first status -/

theorem pushByte_answeredAs (e : Endian) (b : Byte) (s : State) :
    AnsweredAs s ((Instr.pushb e b).firstStatus s) (pushByte e b s) := by
  rw [firstStatus_pushb]
  rcases pushByte_cases e b s with ⟨hfull, h⟩ | ⟨hroom, h⟩
  · rw [h, if_pos hfull]
    exact .raised nofun
  · rw [h, if_neg (by omega)]
    exact .ok rfl

theorem pushValue_answeredAs (e : Endian) (n : BitVec 7) (d : Word) (s : State) :
    AnsweredAs s ((Instr.pushv e n d).firstStatus s) (pushValue e n d s) := by
  rw [firstStatus_pushv]
  rcases pushValue_cases e n d s with ⟨hzero, h⟩ | ⟨hpos, hfull, h⟩ | ⟨hpos, hroom, h⟩
  · rw [h, if_pos hzero]
    exact .raised nofun
  · rw [h, if_neg (by omega), if_pos hfull]
    exact .raised nofun
  · rw [h, if_neg (by omega), if_neg (by omega)]
    exact .ok rfl

theorem pullByte_answeredAs (s : State) : AnsweredAs s (Instr.pullb.firstStatus s) (pullByte s) := by
  rw [firstStatus_pullb]
  rcases pullByte_cases s with ⟨hbyte, h⟩ | ⟨hnone, h⟩
  · rw [h, if_pos hbyte]
    exact .ok rfl
  · rw [h, if_neg (by simp [hnone])]
    exact .noItem

section
variable {k : Kind} {t : TypeOpd} {s : State}

/-- The field check never raises END_OF_INPUT, so its faults leave IN alone. -/
theorem raise_answeredAs_of_checkField_error {x : FaultCause} (h : checkField k t s.buf = .error x) :
    AnsweredAs s (.raised x) (s.raise x 0) := by
  refine .raised ?_
  rcases checkField_error h with ⟨rfl, -⟩ | ⟨rfl, -⟩ | ⟨rfl, -⟩ <;> nofun

theorem pullField_answeredAs (s : State) (ft : FieldType) :
    AnsweredAs s (if s.buf.avail < ft.numBits then .raised .underflow else .ok) (s.pullField ft) := by
  rcases pullField_cases s ft with ⟨hfew, h⟩ | ⟨hstaged, h⟩
  · rw [h, if_pos hfew]
    exact .raised nofun
  · rw [h, if_neg (by omega)]
    exact .ok rfl

theorem pullValue_answeredAs (k : Kind) (t : TypeOpd) (s : State) :
    AnsweredAs s ((Instr.pullv k t).firstStatus s) (pullValue k t s) := by
  rcases pullValue_cases k t s with ⟨x, hx, h⟩ | ⟨ft, hft, h⟩
  · rw [h, firstStatus_of_checkField_error (typed_pullv k t) hx]
    exact raise_answeredAs_of_checkField_error hx
  · obtain ⟨-, -, -, -, hn, -⟩ := checkField_ok hft
    rw [h, firstStatus_pullv hft, ← hn]
    exact pullField_answeredAs s ft

/-- A refill brings the whole container, which the field fits: the pull after it cannot fail. -/
theorem pullField_refill_answeredAs {ft : FieldType} (hft : checkField k t s.buf = .ok ft)
    (hempty : s.buf.avail = 0) (hin : ft.container.bytes ≤ s.input.length) :
    AnsweredAs s .ok ((s.refill ft.container.bytes ft.endian).pullField ft) := by
  obtain ⟨hl, -, -, -, hn, hbytes⟩ := checkField_ok hft
  obtain ⟨-, -, hfits⟩ := numBits_pos_of_legal hl
  obtain ⟨havail, -⟩ := refill_of_empty hempty (container_bytes_le ft.container) hin ft.endian
  rcases pullField_cases (s.refill ft.container.bytes ft.endian) ft with ⟨hfew, -⟩ | ⟨-, h⟩
  · omega
  · rw [h]
    exact .ok rfl

theorem decodeField_answeredAs (k : Kind) (t : TypeOpd) (s : State) :
    AnsweredAs s ((Instr.dec k t).firstStatus s) (decodeField k t s) := by
  rcases decodeField_cases k t s with ⟨x, hx, h⟩ | ⟨ft, hft, hcases⟩
  · rw [h, firstStatus_of_checkField_error (typed_dec k t) hx]
    exact raise_answeredAs_of_checkField_error hx
  · obtain ⟨-, -, -, -, hn, hbytes⟩ := checkField_ok hft
    rw [firstStatus_dec hft, ← hn, ← hbytes]
    rcases hcases with ⟨hempty, hshort, h⟩ | ⟨hempty, hin, h⟩ | ⟨hstaged, h⟩
    · have hle := container_bytes_le ft.container
      rw [h, if_pos ⟨hempty, hshort⟩]
      exact .endOfInput (by omega)
    · rw [h, if_neg (by omega), if_neg (by omega)]
      exact pullField_refill_answeredAs hft hempty hin
    · rw [h, if_neg (by omega)]
      simp only [hstaged, ne_eq, not_false_eq_true, true_and]
      exact pullField_answeredAs s ft

theorem encodeField_answeredAs (k : Kind) (t : TypeOpd) (d : Word) (s : State) :
    AnsweredAs s ((Instr.enc k t d).firstStatus s) (encodeField k t d s) := by
  rcases encodeField_cases k t d s with ⟨x, hx, h⟩ | ⟨ft, hft, hcases⟩
  · rw [h, firstStatus_of_checkField_error (typed_enc k t d) hx]
    exact raise_answeredAs_of_checkField_error hx
  · obtain ⟨-, -, -, -, hn, -⟩ := checkField_ok hft
    rw [firstStatus_enc hft, ← hn]
    rcases hcases with ⟨hfull, h⟩ | ⟨hroom, h⟩
    · rw [h, if_pos hfull]
      exact .raised nofun
    · rw [h, if_neg (by omega)]
      exact .ok rfl

end

theorem flushBuffer_answeredAs (e : Endian) (s : State) :
    AnsweredAs s ((Instr.flush e).firstStatus s) (flushBuffer e s) := by
  rw [firstStatus_flush]
  rcases flushBuffer_cases e s with ⟨-, h⟩ | ⟨-, h⟩ <;> rw [h] <;> exact .ok rfl

/-- R146 for a command that executes. -/
theorem exec_answeredAs (i : Instr) (s : State) : ∃ t, exec i s = .next t ∧ AnsweredAs s (i.firstStatus s) t := by
  induction i using instr_families with
  | pushb e b => exact ⟨_, exec_pushb e b s, pushByte_answeredAs e b s⟩
  | pushv e n d => exact ⟨_, exec_pushv e n d s, pushValue_answeredAs e n d s⟩
  | pullv k t => exact ⟨_, exec_pullv k t s, pullValue_answeredAs k t s⟩
  | pullb => exact ⟨_, rfl, pullByte_answeredAs s⟩
  | drain e => exact ⟨_, exec_drain e s, firstStatus_drain e s ▸ .ok rfl⟩
  | qempty => exact ⟨_, rfl, .ok rfl⟩
  | qalign => exact ⟨_, rfl, .ok rfl⟩
  | mask n => exact ⟨_, rfl, .ok rfl⟩
  | rdbuf => exact ⟨_, rfl, .ok rfl⟩
  | rdavl => exact ⟨_, rfl, .ok rfl⟩
  | dec k t => exact ⟨_, exec_dec k t s, decodeField_answeredAs k t s⟩
  | enc k t d => exact ⟨_, exec_enc k t d s, encodeField_answeredAs k t d s⟩
  | flush e => exact ⟨_, exec_flush e s, flushBuffer_answeredAs e s⟩
  | reset => exact ⟨_, rfl, .ok rfl⟩

/-- R146 for the command at the head of the port. -/
theorem step_answeredAs {s : State} {c : Command} {rest : List Command} (h : s.commands = c :: rest) :
    ∃ t, step s = .next t ∧ AnsweredAs (s.setCommands rest) (firstStatus c s) t := by
  unfold firstStatus
  split
  next hrefused => exact ⟨_, step_refused h hrefused.1 hrefused.2, .faulted⟩
  next hn =>
    have hg : s.fault = 0 ∨ c.cw = resetWord := (not_and_or.mp hn).imp not_not.mp not_not.mp
    split
    next x hd => exact ⟨_, step_illegal h hg hd, .raised nofun⟩
    next i hd => exact (step_run h hg hd).symm ▸ exec_answeredAs i (s.setCommands rest)

/-! ## The statements on statuses -/

/-- Settles O20: the answer comes with the first status, and an answer has one response. -/
theorem priorityIsR146 : Obligations.PriorityIsR146 := by
  intro s c rest hc
  obtain ⟨t, hstep, hans⟩ := step_answeredAs hc
  obtain ⟨r, hr, hstatus, -⟩ := hans.response
  exact ⟨t, r, hstep, hr, hstatus⟩

/-- What an answer that raises does (R136, R140). -/
theorem AnsweredAs.precise {s t : State} {x : FaultCause} {r : Response} (h : AnsweredAs s (.raised x) t)
    (hr : t.responses = s.responses ++ [r]) :
    r.vtag = none ∧
    t = { s with fault := x.code, responses := s.responses ++ [r],
                 input := if x = .endOfInput then [] else s.input } ∧
    r.data = (if x = .endOfInput then BitVec.ofNat 64 s.input.length else 0) ∧
    (x = .endOfInput → s.input.length ≤ 7) := by
  cases h with
  | raised hx =>
    obtain rfl : _ = r := by simpa using hr
    exact ⟨rfl, by rw [if_neg hx]; rfl, (if_neg hx).symm, fun h => absurd h hx⟩
  | endOfInput hlen =>
    obtain rfl : _ = r := by simpa using hr
    exact ⟨rfl, rfl, rfl, fun _ => hlen⟩

/-- Settles O19: a step that raises is an answer to a command, and each answer that raises says what it changes. -/
theorem faultsArePrecise : Obligations.FaultsArePrecise := by
  intro s t r x hstep hr hx
  cases hc : s.commands with
  | nil =>
    rw [step_idle hc] at hstep
    cases hstep
    simp at hr
  | cons c rest =>
    obtain ⟨t', hstep', hans⟩ := step_answeredAs hc
    cases hstep.symm.trans hstep'
    obtain ⟨r', hr', hstatus, -⟩ := hans.response
    obtain rfl : r = r' := by simpa [hr] using hr'
    rw [← hstatus, hx] at hans
    exact hans.precise hr

/-! ## The table of R135: each row of R146 is about commands whose rows of R135 name its cause -/

section
variable {i : Instr} {s : State}

theorem mayRaise_of_badWidth (h : i.badWidth = true) : .unsupportedWidth ∈ mayRaise i.mnemonic := by
  revert h
  cases i <;> simp [Instr.badWidth, Instr.typed, Instr.mnemonic, mayRaise]

theorem mayRaise_of_badFormat (h : i.badFormat = true) : .typeFormat ∈ mayRaise i.mnemonic := by
  revert h
  cases i <;> simp [Instr.badFormat, Instr.typed, Instr.mnemonic, mayRaise]

theorem mayRaise_of_badAlignment (h : i.badAlignment s = true) : .misalignedFloat ∈ mayRaise i.mnemonic := by
  revert h
  cases i <;> simp [Instr.badAlignment, Instr.typed, Instr.mnemonic, mayRaise]

theorem mayRaise_of_noInput (h : i.noInput s = true) : .endOfInput ∈ mayRaise i.mnemonic := by
  revert h
  cases i <;> simp [Instr.noInput, Instr.decWidth, Instr.mnemonic, mayRaise]

theorem mayRaise_of_noRoom (h : i.noRoom s = true) : .capacity ∈ mayRaise i.mnemonic := by
  revert h
  cases i <;> simp [Instr.noRoom, Instr.pushWidth, Instr.mnemonic, mayRaise]

theorem mayRaise_of_tooFewBits (h : i.tooFewBits s = true) : .underflow ∈ mayRaise i.mnemonic := by
  revert h
  cases i <;> simp [Instr.tooFewBits, Instr.pullWidth, Instr.decWidth, Instr.mnemonic, mayRaise]

end

/-- The statuses that a command which executes may be answered with: FAULTED is none of them. -/
def MayAnswer (i : Instr) : Status → Prop
  | .ok => True
  | .raised x => x ∈ mayRaise i.mnemonic
  | .faulted => False
  | .noItem => i = .pullb

theorem mayAnswer_firstStatus (i : Instr) (s : State) : MayAnswer i (i.firstStatus s) := by
  unfold Instr.firstStatus
  split_ifs with hwidth hformat halign hinput hroom hbits hnone
  · exact mayRaise_of_badWidth hwidth
  · exact mayRaise_of_badFormat hformat
  · exact mayRaise_of_badAlignment halign
  · exact mayRaise_of_noInput hinput
  · exact mayRaise_of_noRoom hroom
  · exact mayRaise_of_tooFewBits hbits
  · exact hnone.1
  · trivial

/-- Settles O21: the status is the first of R146, which R135's table covers. -/
theorem commandsRaiseOnlyTheirCauses : Obligations.CommandsRaiseOnlyTheirCauses := by
  intro i s
  obtain ⟨t, hexec, hans⟩ := exec_answeredAs i s
  obtain ⟨r, hr, hstatus, htag⟩ := hans.response
  have hallowed : MayAnswer i r.status := hstatus ▸ mayAnswer_firstStatus i s
  exact ⟨t, r, hexec, hr, hstatus ▸ htag, hallowed⟩

end Sys2Proof.Proofs
end

section
/-! PROOF. The faulted condition (spec/60_exceptions.md R144, R148), the idle step (R152), and the results that end in a
fault or in NO_ITEM: refused pushes (R137, R138), PULLB (R145), END_OF_INPUT (R140). -/

namespace Sys2Proof.Proofs

open Sys2Proof.Machine Sys2Proof.Laws

/-! ## The faulted condition and the idle step -/

/-- Settles O22, by induction on the number of commands: each is refused, and the fault that refuses it stays. -/
theorem faultIsSticky : Obligations.FaultIsSticky := by
  intro k
  induction k with
  | zero => intro s _ _ _; simp
  | succ k ih =>
    intro s hf hk hw
    cases hc : s.commands with
    | nil => simp [hc] at hk
    | cons c rest =>
      rw [hc] at hk hw
      obtain ⟨hwc, hwrest⟩ := List.forall_mem_cons.mp hw
      rw [run_succ k (step_refused hc hf hwc),
        ih ((s.setCommands rest).respond .faulted none (s.fault.setWidth 64)) hf (Nat.le_of_succ_le_succ hk) hwrest]
      simp [State.respond, State.setCommands, List.replicate_succ]

/-- Settles O23: the word of RESET runs under a fault, and any other word is refused. -/
theorem onlyResetClearsFault : Obligations.OnlyResetClearsFault := by
  intro s c rest hc hf
  by_cases hw : c.cw = resetWord
  · have hd : decode c = .ok .reset := by
      obtain ⟨cw, d⟩ := c
      subst hw
      exact decode_resetWord d
    exact ⟨_, _, (step_run hc (.inr hw) hd).trans (exec_reset _), rfl, fun _ => ⟨rfl, rfl, rfl⟩, fun hn => absurd hw hn⟩
  · exact ⟨_, _, step_refused hc hf hw, rfl, fun hr => absurd hr hw, fun _ => ⟨rfl, rfl, rfl⟩⟩

/-- Settles O14: the rule of the idle step. -/
theorem idleHoldsState : Obligations.IdleHoldsState := fun _ h => step_idle h

/-! ## Pushes that are refused (R137, R138) -/

theorem pushValue_of_full {n : BitVec 7} {s : State} (hpos : 1 ≤ n.toNat) (hfull : 64 < s.buf.avail + n.toNat)
    (e : Endian) (data : Word) : pushValue e n data s = s.raise .capacity 0 := by
  rcases pushValue_cases e n data s with ⟨hzero, -⟩ | ⟨-, -, h⟩ | ⟨-, hroom, -⟩
  · omega
  · exact h
  · omega

theorem pushValue_of_zero {n : BitVec 7} (hzero : n.toNat = 0) (e : Endian) (data : Word) (s : State) :
    pushValue e n data s = s.raise .unsupportedWidth 0 := by
  rcases pushValue_cases e n data s with ⟨-, h⟩ | ⟨hpos, -⟩ | ⟨hpos, -⟩
  · exact h
  · omega
  · omega

theorem pushByte_of_full {s : State} (hfull : 64 < s.buf.avail + 8) (e : Endian) (imm8 : Byte) :
    pushByte e imm8 s = s.raise .capacity 0 := by
  rcases pushByte_cases e imm8 s with ⟨-, h⟩ | ⟨hroom, -⟩
  · exact h
  · omega

/-- An ENC whose field check passes has only its room left to fail on. -/
theorem encodeField_of_full {k : Kind} {t : TypeOpd} {s : State} (hl : LegalTd k t) (ha : AlignedFor k s.buf)
    (hfull : 64 < s.buf.avail + requestWidth k t) (data : Word) : encodeField k t data s = s.raise .capacity 0 := by
  obtain ⟨ft, hcheck, -, -, hn, -⟩ := checkField_legal hl ha
  rcases encodeField_cases k t data s with ⟨x, hx, -⟩ | ⟨ft', hft', ⟨-, h⟩ | ⟨hroom, -⟩⟩
  · cases hcheck.symm.trans hx
  · exact h
  · cases hcheck.symm.trans hft'
    omega

/-- Settles O30: each command refuses for want of room, and PUSHV a width of 0 before that. -/
theorem refusedPushes : Obligations.RefusedPushes := by
  intro e s
  refine ⟨fun n data hzero => ?_, fun n data hpos hfull => ?_, fun imm8 hfull => ?_, fun k t data hl ha hfull => ?_⟩
  · rw [exec_pushv, pushValue_of_zero hzero]
    rfl
  · rw [exec_pushv, pushValue_of_full hpos (by omega)]
    rfl
  · rw [exec_pushb, pushByte_of_full (by omega)]
    rfl
  · rw [exec_enc, encodeField_of_full hl ha (by omega)]
    rfl

/-! ## PULLB (R77, R145) -/

/-- Settles O33: PULLB's one test is the byte alignment of the buffer, and its byte is a big-endian pull of 8 bits. -/
theorem pullByteResult : Obligations.PullByteResult := by
  intro s
  rcases pullByte_cases s with ⟨hbyte, h⟩ | ⟨hnone, h⟩
  · obtain ⟨hpos, hwhole⟩ := (aligned_iff s.buf).mp hbyte
    have hpull := extract_pulled .big s.buf (n := 8) (by omega)
    exact ⟨fun _ _ => ⟨_, _, hpull, congrArg Host.Outcome.next h⟩, fun hoff => by omega⟩
  · have hoff : ¬ (0 < s.buf.avail ∧ s.buf.avail % 8 = 0) := fun hb => by simp [(aligned_iff s.buf).mpr hb] at hnone
    exact ⟨fun hpos hwhole => absurd ⟨hpos, hwhole⟩ hoff, fun _ => congrArg Host.Outcome.next h⟩

/-! ## END_OF_INPUT (R111, R140) -/

/-- DEC on an empty buffer needs one container of IN. -/
theorem decodeField_of_short {k : Kind} {t : TypeOpd} {s : State} (hl : LegalTd k t) (hempty : s.buf.avail = 0)
    (hshort : s.input.length < 2 ^ t.cc.toNat) :
    decodeField k t s = (s.setInput []).raise .endOfInput (BitVec.ofNat 64 s.input.length) := by
  obtain ⟨ft, hcheck, -, -, -, hbytes⟩ := checkField_legal hl (alignedFor_of_whole k (b := s.buf) (by omega))
  rcases decodeField_cases k t s with ⟨x, hx, -⟩ | ⟨ft', hft', ⟨-, -, h⟩ | ⟨-, hin, -⟩ | ⟨hstaged, -⟩⟩
  · cases hcheck.symm.trans hx
  · exact h
  · cases hcheck.symm.trans hft'
    omega
  · exact absurd hempty hstaged

theorem endOfInput_not_mem_mayRaise_pullv (k : Kind) (t : TypeOpd) :
    FaultCause.endOfInput ∉ mayRaise (Instr.pullv k t).mnemonic := by
  cases k <;> simp [Instr.pullv, Instr.mnemonic, mayRaise]

/-- Settles O41: on an empty buffer IN is too short for a container; on any other DEC is PULLV, which never raises
END_OF_INPUT and leaves IN alone. -/
theorem endOfInputResult : Obligations.EndOfInputResult := by
  intro k t s
  refine ⟨fun hl hempty hshort => ?_, fun hstaged => ?_⟩
  · rw [exec_dec, decodeField_of_short hl hempty hshort]
    rfl
  · obtain ⟨u, r, hexec, hr, -, hcause⟩ := commandsRaiseOnlyTheirCauses (.pullv k t) s
    have hinput : u.input = s.input := by
      cases hexec.symm.trans (exec_pullv k t s)
      exact (pullValue_sameStreams k t s).input
    refine ⟨u, r, (exec_dec_of_staged hstaged).trans hexec, hr, fun hend => ?_, hinput⟩
    rw [hend] at hcause
    exact endOfInput_not_mem_mayRaise_pullv k t hcause

end Sys2Proof.Proofs
end
